-- ==== Sys2Proof/Word.lean ====
section
/-! DEFINITION. The machine's word types: the byte of the framebuffer and of the image space, the 96-bit command
word, the 32-bit image address, and a pixel position. -/

namespace Sys2Proof

/-- One byte: eight vertically stacked pixels, bit 0 the top one (10_state.md R22). -/
abbrev Byte := BitVec 8

/-- A command word `C[95:0]` (30_encoding.md R60, R61). -/
abbrev CmdWord := BitVec 96

/-- A byte address of the image space (20_memory.md R50). -/
abbrev ImgAddr := BitVec 32

/-- A logical pixel coordinate (x, y): mathematical integers of any size and sign (20_memory.md R40). -/
abbrev Point := Int × Int

end Sys2Proof
end

