-- ==== Sys2Proof/Syntax.lean ====
section
/-! DEFINITION. The commands of FBE, one constructor per row of spec/opcode_table.json (30_encoding.md R66). Operands are
what 30_encoding.md R62 says a field is read as: coordinates are mathematical integers, dimensions and addresses are
unsigned numbers. -/

namespace Sys2Proof

/-- The thirteen commands, operands in the order of the written syntax (30_encoding.md R71). -/
inductive Instr where
  /-- `CLR`: every framebuffer byte becomes 0x00 (40_pixel_ops.md R90). -/
  | clr
  /-- `CLRA x, y, w, h`: clear the pixels of a rectangle (R91). -/
  | clra (x y : Int) (w h : Nat)
  /-- `INV`: complement every framebuffer byte (R92). -/
  | inv
  /-- `INVA x, y, w, h`: toggle the pixels of a rectangle (R93). -/
  | inva (x y : Int) (w h : Nat)
  /-- `SETP x, y`: set one pixel (R94). -/
  | setp (x y : Int)
  /-- `GETP x, y`: read one pixel (R95). -/
  | getp (x y : Int)
  /-- `RDB page, col`: read one framebuffer byte (R96). -/
  | rdb (page col : Nat)
  /-- `BLIT x, y, w, h, src`: copy a bitmap of the image space (41_blit.md R110). -/
  | blit (x y : Int) (w h src : Nat)
  /-- `LINE x0, y0, x1, y1` (42_line.md R120). -/
  | line (x0 y0 x1 y1 : Int)
  /-- `CIRC x, y, r`: circle, outline (43_circle.md R130). -/
  | circ (x y : Int) (r : Nat)
  /-- `CIRCF x, y, r`: circle, filled (43_circle.md R132). -/
  | circf (x y : Int) (r : Nat)
  /-- `ELPS x, y, a, b`: ellipse, outline (44_ellipse.md R140). -/
  | elps (x y : Int) (a b : Nat)
  /-- `ELPSF x, y, a, b`: ellipse, filled (44_ellipse.md R143). -/
  | elpsf (x y : Int) (a b : Nat)
  deriving DecidableEq, Repr

end Sys2Proof
end

