-- ==== Sys2Proof/WellFormed.lean ====
section
/-! DEFINITION. Which commands a word can carry: every operand inside the range of its field (30_encoding.md R62). The
ranges are all a word checks: operand VALUES never make a command illegal (R69). -/

namespace Sys2Proof

/-- A coordinate operand fits a 16-bit two's complement field: -32768 to 32767 (30_encoding.md R62). -/
def coordOk (v : Int) : Bool := decide (-32768 ≤ v) && decide (v ≤ 32767)

/-- A dimension operand fits an 8-bit unsigned field: 0 to 255 (30_encoding.md R62). -/
def dimOk (v : Nat) : Bool := decide (v ≤ 255)

/-- An image address fits the 32-bit field `SRC` (30_encoding.md R62). -/
def srcOk (v : Nat) : Bool := decide (v < 4294967296)

/-- Every operand of the command is in the range of its field. -/
def Instr.wf : Instr → Bool
  | .clr => true
  | .clra x y w h => coordOk x && coordOk y && dimOk w && dimOk h
  | .inv => true
  | .inva x y w h => coordOk x && coordOk y && dimOk w && dimOk h
  | .setp x y => coordOk x && coordOk y
  | .getp x y => coordOk x && coordOk y
  | .rdb page col => dimOk page && dimOk col
  | .blit x y w h src => coordOk x && coordOk y && dimOk w && dimOk h && srcOk src
  | .line x0 y0 x1 y1 => coordOk x0 && coordOk y0 && coordOk x1 && coordOk y1
  | .circ x y r => coordOk x && coordOk y && dimOk r
  | .circf x y r => coordOk x && coordOk y && dimOk r
  | .elps x y a b => coordOk x && coordOk y && dimOk a && dimOk b
  | .elpsf x y a b => coordOk x && coordOk y && dimOk a && dimOk b

end Sys2Proof
end

