-- ==== Sys2Proof/Decode.lean ====
section
/-! DEFINITION. The command word: its fields, the decoder (total, rejecting by name), the opcode table of
30_encoding.md R66 as data, the encoder, the 32-bit transport and the written forms. -/

namespace Sys2Proof

/-! ## Fields (30_encoding.md R61) -/

/-- `OP = C[95:88]`. -/
def opField (c : CmdWord) : Byte := c.extractLsb' 88 8
/-- `FL = C[87:80]`. -/
def flField (c : CmdWord) : Byte := c.extractLsb' 80 8
/-- `P = C[79:72]`. -/
def pField (c : CmdWord) : Byte := c.extractLsb' 72 8
/-- `Q = C[71:64]`. -/
def qField (c : CmdWord) : Byte := c.extractLsb' 64 8
/-- `X = C[63:48]`. -/
def xField (c : CmdWord) : BitVec 16 := c.extractLsb' 48 16
/-- `Y = C[47:32]`. -/
def yField (c : CmdWord) : BitVec 16 := c.extractLsb' 32 16
/-- `AUX = C[31:0]`. -/
def auxField (c : CmdWord) : BitVec 32 := c.extractLsb' 0 32
/-- `C[31:16]`, the field X1 of LINE. -/
def x1Field (c : CmdWord) : BitVec 16 := c.extractLsb' 16 16
/-- `C[15:0]`, the field Y1 of LINE. -/
def y1Field (c : CmdWord) : BitVec 16 := c.extractLsb' 0 16

/-- `sext_16`: the 16-bit pattern read as a two's complement signed integer (00_scope.md R11). -/
def sext16 (v : BitVec 16) : Int := v.toInt
/-- `zext_8`: the 8-bit pattern read as an unsigned integer (00_scope.md R11). -/
def zext8 (v : Byte) : Nat := v.toNat
/-- `zext_32` (00_scope.md R11). -/
def zext32 (v : BitVec 32) : Nat := v.toNat
/-- The fill flag `F = FL[0]` (30_encoding.md R67). -/
def fillFlag (c : CmdWord) : Bool := (flField c).getLsbD 0

/-! ## Formats and reserved fields (30_encoding.md R65) -/

/-- The eight formats. -/
inductive Format where
  | n | pt | rb | rc | bl | ln | cr | el
  deriving DecidableEq, Repr

/-- The fields a format can reserve. `flHigh` is `FL[7:1]`. -/
inductive FieldName where
  | fl | flHigh | p | q | x | y | aux
  deriving DecidableEq, Repr

/-- The field is zero in the word. -/
def FieldName.isZero (c : CmdWord) : FieldName → Bool
  | .fl => flField c == 0#8
  | .flHigh => flField c >>> 1 == 0#8
  | .p => pField c == 0#8
  | .q => qField c == 0#8
  | .x => xField c == 0#16
  | .y => yField c == 0#16
  | .aux => auxField c == 0#32

/-- "fields that must be 0", the table of 30_encoding.md R65. -/
def Format.reserved : Format → List FieldName
  | .n => [.fl, .p, .q, .x, .y, .aux]
  | .pt => [.fl, .p, .q, .aux]
  | .rb => [.fl, .x, .y, .aux]
  | .rc => [.fl, .aux]
  | .bl => [.fl]
  | .ln => [.fl, .p, .q]
  | .cr => [.flHigh, .q, .aux]
  | .el => [.flHigh, .aux]

/-! ## The decoder (30_encoding.md R68 to R70) -/

/-- Why a word is illegal (30_encoding.md R68). Architecturally every reason gives the one exception IllegalCommand
(60_exceptions.md R173); the name is for the reader (log entry 12). -/
inductive DecodeError where
  /-- `OP` is 0x00 or 0x0C to 0xFF. -/
  | unassignedOpcode (op : Byte)
  /-- A reserved field of the opcode's format is not zero. -/
  | reservedField (field : FieldName)
  deriving DecidableEq, Repr

/-- Accept the command if every reserved field of its format is zero. -/
def checked (c : CmdWord) (f : Format) (i : Instr) : Except DecodeError Instr :=
  match f.reserved.find? (fun name => !name.isZero c) with
  | some name => .error (.reservedField name)
  | none => .ok i

/-- `decode`: a 96-bit word to one of the thirteen commands with its operands, or illegal; total, and with no state
(30_encoding.md R70). -/
def decode (c : CmdWord) : Except DecodeError Instr :=
  let x := sext16 (xField c)
  let y := sext16 (yField c)
  let p := zext8 (pField c)
  let q := zext8 (qField c)
  match (opField c).toNat with
  | 0x01 => checked c .n .clr
  | 0x02 => checked c .rc (.clra x y p q)
  | 0x03 => checked c .n .inv
  | 0x04 => checked c .rc (.inva x y p q)
  | 0x05 => checked c .pt (.setp x y)
  | 0x06 => checked c .pt (.getp x y)
  | 0x07 => checked c .rb (.rdb p q)
  | 0x08 => checked c .bl (.blit x y p q (zext32 (auxField c)))
  | 0x09 => checked c .ln (.line x y (sext16 (x1Field c)) (sext16 (y1Field c)))
  | 0x0A => checked c .cr (if fillFlag c then .circf x y p else .circ x y p)
  | 0x0B => checked c .el (if fillFlag c then .elpsf x y p q else .elps x y p q)
  | _ => .error (.unassignedOpcode (opField c))

/-- The decoder's reading of a word given as the number spec/opcode_table.json numbers it by: the command word is one
96-bit value, bit 0 its least significant bit (30_encoding.md R61; log entry 11). -/
def decodeTableWord (nbits w : Nat) : Option Instr :=
  match decode (BitVec.ofNat 96 (w % 2 ^ nbits)) with
  | .ok i => some i
  | .error _ => none

/-! ## The opcode table as data (30_encoding.md R66) -/

/-- One row of the opcode map: a word is the row's command exactly when `C & mask = pattern`. -/
structure OpcodeRow where
  mnemonic : String
  format : Format
  pattern : CmdWord
  mask : CmdWord
  deriving DecidableEq, Repr

/-- The word matches the row. -/
def OpcodeRow.selects (r : OpcodeRow) (c : CmdWord) : Bool := c &&& r.mask == r.pattern

/-- The table of 30_encoding.md R66, row for row. -/
def opcodeTable : List OpcodeRow :=
  [ ⟨"CLR", .n, 0x010000000000000000000000#96, 0xFFFFFFFFFFFFFFFFFFFFFFFF#96⟩,
    ⟨"CLRA", .rc, 0x020000000000000000000000#96, 0xFFFF000000000000FFFFFFFF#96⟩,
    ⟨"INV", .n, 0x030000000000000000000000#96, 0xFFFFFFFFFFFFFFFFFFFFFFFF#96⟩,
    ⟨"INVA", .rc, 0x040000000000000000000000#96, 0xFFFF000000000000FFFFFFFF#96⟩,
    ⟨"SETP", .pt, 0x050000000000000000000000#96, 0xFFFFFFFF00000000FFFFFFFF#96⟩,
    ⟨"GETP", .pt, 0x060000000000000000000000#96, 0xFFFFFFFF00000000FFFFFFFF#96⟩,
    ⟨"RDB", .rb, 0x070000000000000000000000#96, 0xFFFF0000FFFFFFFFFFFFFFFF#96⟩,
    ⟨"BLIT", .bl, 0x080000000000000000000000#96, 0xFFFF00000000000000000000#96⟩,
    ⟨"LINE", .ln, 0x090000000000000000000000#96, 0xFFFFFFFF0000000000000000#96⟩,
    ⟨"CIRC", .cr, 0x0A0000000000000000000000#96, 0xFFFF00FF00000000FFFFFFFF#96⟩,
    ⟨"CIRCF", .cr, 0x0A0100000000000000000000#96, 0xFFFF00FF00000000FFFFFFFF#96⟩,
    ⟨"ELPS", .el, 0x0B0000000000000000000000#96, 0xFFFF000000000000FFFFFFFF#96⟩,
    ⟨"ELPSF", .el, 0x0B0100000000000000000000#96, 0xFFFF000000000000FFFFFFFF#96⟩ ]

/-- The mnemonic of a command (30_encoding.md R66, R71). -/
def Instr.mnemonic : Instr → String
  | .clr => "CLR"
  | .clra _ _ _ _ => "CLRA"
  | .inv => "INV"
  | .inva _ _ _ _ => "INVA"
  | .setp _ _ => "SETP"
  | .getp _ _ => "GETP"
  | .rdb _ _ => "RDB"
  | .blit _ _ _ _ _ => "BLIT"
  | .line _ _ _ _ => "LINE"
  | .circ _ _ _ => "CIRC"
  | .circf _ _ _ => "CIRCF"
  | .elps _ _ _ _ => "ELPS"
  | .elpsf _ _ _ _ => "ELPSF"

/-! ## The encoder -/

/-- A word from its seven fields, most significant first (30_encoding.md R61). -/
def wordOfFields (op fl p q : Byte) (x y : BitVec 16) (aux : BitVec 32) : CmdWord :=
  op ++ (fl ++ (p ++ (q ++ (x ++ (y ++ aux)))))

/-- The 16-bit field of a coordinate. -/
def coordField (v : Int) : BitVec 16 := BitVec.ofInt 16 v
/-- The 8-bit field of a dimension. -/
def dimField (v : Nat) : Byte := BitVec.ofNat 8 v

/-- The word of a command; for a well-formed command every operand is kept whole (30_encoding.md R61, R65, R66). An
ill-formed operand is cut to its field. -/
def encode : Instr → CmdWord
  | .clr => wordOfFields 0x01 0 0 0 0 0 0
  | .clra x y w h => wordOfFields 0x02 0 (dimField w) (dimField h) (coordField x) (coordField y) 0
  | .inv => wordOfFields 0x03 0 0 0 0 0 0
  | .inva x y w h => wordOfFields 0x04 0 (dimField w) (dimField h) (coordField x) (coordField y) 0
  | .setp x y => wordOfFields 0x05 0 0 0 (coordField x) (coordField y) 0
  | .getp x y => wordOfFields 0x06 0 0 0 (coordField x) (coordField y) 0
  | .rdb page col => wordOfFields 0x07 0 (dimField page) (dimField col) 0 0 0
  | .blit x y w h src =>
      wordOfFields 0x08 0 (dimField w) (dimField h) (coordField x) (coordField y) (BitVec.ofNat 32 src)
  | .line x0 y0 x1 y1 =>
      wordOfFields 0x09 0 0 0 (coordField x0) (coordField y0) (coordField x1 ++ coordField y1)
  | .circ x y r => wordOfFields 0x0A 0 (dimField r) 0 (coordField x) (coordField y) 0
  | .circf x y r => wordOfFields 0x0A 1 (dimField r) 0 (coordField x) (coordField y) 0
  | .elps x y a b => wordOfFields 0x0B 0 (dimField a) (dimField b) (coordField x) (coordField y) 0
  | .elpsf x y a b => wordOfFields 0x0B 1 (dimField a) (dimField b) (coordField x) (coordField y) 0

/-! ## Transport over a 32-bit path and the written forms (30_encoding.md R63, R71) -/

/-- The word from its three 32-bit parts in the order sent, `W0 = C[95:64]` first (30_encoding.md R63). -/
def wordOfParts (w0 w1 w2 : BitVec 32) : CmdWord := w0 ++ (w1 ++ w2)

/-- The three parts of a word in the order sent (30_encoding.md R63). -/
def partsOfWord (c : CmdWord) : List (BitVec 32) :=
  [c.extractLsb' 64 32, c.extractLsb' 32 32, c.extractLsb' 0 32]

/-- One hexadecimal digit. -/
def hexDigit (d : Nat) : Char :=
  ['0', '1', '2', '3', '4', '5', '6', '7', '8', '9', 'A', 'B', 'C', 'D', 'E', 'F'].getD (d % 16) '0'

/-- The last `k` hexadecimal digits of a number, most significant first. -/
def hexDigits : Nat → Nat → List Char
  | 0, _ => []
  | k + 1, n => hexDigits k (n / 16) ++ [hexDigit n]

/-- The written form of a word: `0x` and 24 digits, most significant first (30_encoding.md R63). -/
def writtenWord (c : CmdWord) : String := "0x" ++ String.ofList (hexDigits 24 c.toNat)

/-- Operands separated by a comma and a space. -/
def operandList (ops : List Int) : String := String.intercalate ", " (ops.map toString)

/-- The listing line of a command: its mnemonic and its operands in the order of 30_encoding.md R71. -/
def Instr.listing : Instr → String
  | .clr => "CLR"
  | .clra x y w h => "CLRA " ++ operandList [x, y, w, h]
  | .inv => "INV"
  | .inva x y w h => "INVA " ++ operandList [x, y, w, h]
  | .setp x y => "SETP " ++ operandList [x, y]
  | .getp x y => "GETP " ++ operandList [x, y]
  | .rdb page col => "RDB " ++ operandList [page, col]
  | .blit x y w h src => "BLIT " ++ operandList [x, y, w, h, src]
  | .line x0 y0 x1 y1 => "LINE " ++ operandList [x0, y0, x1, y1]
  | .circ x y r => "CIRC " ++ operandList [x, y, r]
  | .circf x y r => "CIRCF " ++ operandList [x, y, r]
  | .elps x y a b => "ELPS " ++ operandList [x, y, a, b]
  | .elpsf x y a b => "ELPSF " ++ operandList [x, y, a, b]

end Sys2Proof
end

