-- ==== Sys2Proof/Config.lean ====
section
/-! DEFINITION. What is fixed for the machine, and its one free value. FBE has no optional feature, no build-time switch
and no configuration register (00_scope.md R8). The numbers of 00_scope.md R6 (WIDTH 128, HEIGHT 64, PAGES 8, COLS 128)
are fixed by the document and are no parameters; the bounds of the rules (127, 63, 7) are written in the definitions
as the rules write them. -/

namespace Sys2Proof

/-- The number of bytes of the framebuffer, `PAGES * COLS` (00_scope.md R6, 10_state.md R22). -/
def Config.fbSize : Nat := 1024

/-- The number of byte addresses of the image space (20_memory.md R50). -/
def Config.imgSize : Nat := 4294967296

/-- FREE VALUE: the framebuffer byte that the `n`-th reset input leaves at an address. "FB[p][c] <- unspecified"
(70_reset_and_hazards.md R190). It has no body, so nothing can be proved about any value of it (log entry 2). -/
opaque Config.resetByte (n address : Nat) : Byte

end Sys2Proof
end

