-- ==== Sys2Proof/Machine/State.lean ====
section
/-! DEFINITION. The machine's state as plain data, the reasons a step can stop, and the state after reset. -/

namespace Sys2Proof.Machine

/-- A memory: its (address, byte) pairs in canonical form, addresses strictly rising and no byte equal to what an
unlisted address reads as (`Memory.read` in Machine/Ops.lean, log entries 1 and 3). Two memories of this type exist: the
framebuffer and the image space. -/
abbrev Memory := List Host.Cell

/-- The status `ST` of a response. "`ST = 2` and `ST = 3` are never produced" (30_encoding.md R64), so two
constructors are all (93_implementation_defined.md U8). -/
inductive Status where
  /-- `ST = 0`. -/
  | ok
  /-- `ST = 1`: the word was illegal (60_exceptions.md R171). -/
  | illegal
  deriving DecidableEq, Repr

/-- A response: status and result byte (30_encoding.md R64). -/
structure Response where
  status : Status
  data : Byte
  deriving DecidableEq, Repr

/-- What the outside world does to the block, one thing between two commands. -/
inductive Input where
  /-- The host presents a command word at the command port (10_state.md R31). -/
  | command (w : CmdWord)
  /-- The reset input is asserted; `inFlight` is the word that was in flight then, if one was: it is abandoned
  (70_reset_and_hazards.md R190; log entry 8). -/
  | reset (inFlight : Option CmdWord)
  /-- The platform stores a byte in the image space, between commands (10_state.md R31, R34; log entry 5). -/
  | imageWrite (a : ImgAddr) (b : Byte)
  deriving DecidableEq, Repr

/-- The machine's state. -/
structure State where
  /-- `FB`, the only architectural state (10_state.md R21, R22): the byte of page `p`, column `c` at 128 p + c. -/
  fb : Memory
  /-- `IMG`, the external image space (20_memory.md R50); a parameter of every step, never written by a command. -/
  img : Memory
  /-- The interface bit *busy* (10_state.md R33). -/
  busy : Bool
  /-- What the host has presented and the block has not yet taken, oldest first (70_reset_and_hazards.md R195). -/
  inputs : List Input
  /-- The responses delivered to the host, oldest first: one per command, in command order (30_encoding.md R64). -/
  responses : List Response
  /-- The model's own counter, not the spec's: reset inputs taken so far. It picks the free framebuffer contents
  (`Config.resetByte`) after each (log entry 2). -/
  resets : Nat
  deriving DecidableEq, Repr

/-- The reasons the machine stops with a fault: none. The step function is total, "with no error monad, no trap state
and no 'stuck' outcome" (60_exceptions.md R184); IllegalCommand is a next state (R171). -/
inductive Fault where
  deriving DecidableEq, Repr

/-- The reasons an instruction has no meaning in the model. -/
inductive Refusal where
  /-- Raised by an arm of `exec` whose instruction has no meaning yet. No arm raises it. Safe: a stop proves nothing. -/
  | notModelled (mnemonic : String)
  deriving DecidableEq, Repr

/-- The state after reset for given contents of the framebuffer and of the image space. The spec leaves both to the
hardware and the platform (10_state.md R35): a claim about what follows power-on is stated for every `fb` and `img`. -/
def State.resetWith (fb img : Memory) : State where
  fb := fb
  img := img
  busy := false
  inputs := []
  responses := []
  resets := 0

/-- The machine right after reset: idle, no response pending, nothing presented (10_state.md R35). Both memories have
nothing listed (log entries 1 and 3: the contents are the model's choice, the spec leaves them unspecified). -/
def State.reset : State := State.resetWith [] []

end Sys2Proof.Machine
end

