-- ==== Sys2Proof/Machine/Flags.lean ====
section
/-! DEFINITION. FBE has no flags, no condition codes and no status register (10_state.md R28): the one status it computes is
that of a response word (30_encoding.md R64). -/

namespace Sys2Proof.Machine

/-- The 2-bit code of a status: `OK` is 0, `ILLEGAL` is 1 (30_encoding.md R64). -/
def Status.code : Status → BitVec 2
  | .ok => 0
  | .illegal => 1

/-- The response word `RSP[9:0]`: `ST = RSP[9:8]`, `DATA = RSP[7:0]` (30_encoding.md R64). -/
def Response.word (r : Response) : BitVec 10 := r.status.code ++ r.data

/-- The coding of a pixel value as a result byte: 0x01 or 0x00 (40_pixel_ops.md R95). -/
def pixelByte (b : Bool) : Byte := if b then 1#8 else 0#8

end Sys2Proof.Machine
end

