-- ==== Sys2Proof/Machine/Operands.lean ====
section
/-! DEFINITION. The operand forms: pixel addressing, framebuffer byte addressing, image addressing (30_encoding.md R78),
and the point lists that rectangles and spans name. -/

namespace Sys2Proof.Machine

/-- `InBounds(x, y) := 0 ≤ x ≤ 127 and 0 ≤ y ≤ 63`, on the full integer values (20_memory.md R41). -/
def inBounds (x y : Int) : Bool := decide (0 ≤ x ∧ x ≤ 127 ∧ 0 ≤ y ∧ y ≤ 63)

/-- `ByteInBounds(p, c) := 0 ≤ p ≤ 7 and 0 ≤ c ≤ 127` (20_memory.md R41). -/
def byteInBounds (p c : Int) : Bool := decide (0 ≤ p ∧ p ≤ 7 ∧ 0 ≤ c ∧ c ≤ 127)

/-- `Page(y) := y div 8`, floor division (20_memory.md R42). -/
def pageOf (y : Int) : Int := y / 8

/-- `Bit(y) := y mod 8` (20_memory.md R42). -/
def bitOf (y : Int) : Nat := (y % 8).toNat

/-- `Mask(y) := 1 << Bit(y)` (20_memory.md R42). -/
def maskOf (y : Int) : Byte := 1#8 <<< bitOf y

/-- The address of the framebuffer byte of page `p`, column `c`: the linear index of 20_memory.md R42 (never visible to
the host; log entry 4). -/
def cellOf (p c : Int) : Nat := (128 * p + c).toNat

/-- `for v in a .. b`: every integer from `a` to `b`, ascending, none when `a > b` (00_scope.md R11). -/
def intRange (a b : Int) : List Int := (List.range (b - a + 1).toNat).map (fun k : Nat => a + (k : Int))

/-- The pixels of the rectangle (X, Y, W, H), row by row (40_pixel_ops.md R97, R91). -/
def rectPoints (x y : Int) (w h : Nat) : List Point :=
  (intRange y (y + h - 1)).flatMap (fun yy => (intRange x (x + w - 1)).map (fun xx => (xx, yy)))

/-- The pixels of a horizontal run, both ends inclusive (20_memory.md R48). -/
def spanPoints (xl xr y : Int) : List Point := (intRange xl xr).map (fun x => (x, y))

/-- The effective address of source byte (j, i) of a bitmap: `(SRC + j·W + i) mod 2^32` (41_blit.md R112). -/
def imageAddress (src w j i : Nat) : Nat := (src + j * w + i) % Config.imgSize

/-- The number of bands, `NB = ceil(H/8)` (41_blit.md R111; 00_scope.md R10 for `ceil`). -/
def bandCount (h : Nat) : Nat := (h + 8 - 1) / 8

end Sys2Proof.Machine
end

