-- ==== Sys2Proof/Machine/Ops.lean ====
section
/-! DEFINITION. The named operations every meaning is written in: reading and writing a memory, the framebuffer primitives
of 20_memory.md R43 to R48, answering a command, raising IllegalCommand, taking an input. -/

namespace Sys2Proof.Machine

/-! ## A memory as a sorted list -/

/-- The byte at an address. An address the list does not hold reads as 0x00 (log entries 1 and 3). -/
def Memory.read : Memory → Nat → Byte
  | [], _ => 0#8
  | (k, b) :: m, a => if a = k then b else if a < k then 0#8 else Memory.read m a

/-- Store a byte at an address, keeping the canonical form: storing 0x00 removes the entry. -/
def Memory.write : Memory → Nat → Byte → Memory
  | [], a, b => if b = 0#8 then [] else [(a, b)]
  | (k, c) :: m, a, b =>
    if a < k then (if b = 0#8 then (k, c) :: m else (a, b) :: (k, c) :: m)
    else if a = k then (if b = 0#8 then m else (a, b) :: m)
    else (k, c) :: Memory.write m a b

/-- The memory whose byte at each address from `a` on, `n` of them, is `f` of the address. -/
def Memory.tabulate (f : Nat → Byte) : Nat → Nat → Memory
  | 0, _ => []
  | n + 1, a => if f a = 0#8 then Memory.tabulate f n (a + 1) else (a, f a) :: Memory.tabulate f n (a + 1)

/-- Every entry lies at `a` or above and below `bound`, addresses rise strictly, and no entry is 0x00. -/
def Memory.wfFrom (bound : Nat) : Nat → Memory → Bool
  | _, [] => true
  | a, (k, b) :: m => decide (a ≤ k) && decide (k < bound) && !(b == 0#8) && Memory.wfFrom bound (k + 1) m

/-- The canonical form of a memory of `bound` addresses. -/
def Memory.wf (bound : Nat) (m : Memory) : Bool := Memory.wfFrom bound 0 m

/-! ## The framebuffer primitives -/

/-- `FB[p][c]` (00_scope.md R11), for `p` in 0..7 and `c` in 0..127. -/
def fbRead (fb : Memory) (p c : Int) : Byte := Memory.read fb (cellOf p c)

/-- `FB[p][c] <- v` (00_scope.md R11). -/
def fbWrite (fb : Memory) (p c : Int) (v : Byte) : Memory := Memory.write fb (cellOf p c) v

/-- `Plot(x, y)`: set one pixel; out of bounds, nothing (20_memory.md R43). -/
def plot (fb : Memory) (x y : Int) : Memory :=
  if inBounds x y then fbWrite fb (pageOf y) x (fbRead fb (pageOf y) x ||| maskOf y) else fb

/-- `Unplot(x, y)`: clear one pixel; out of bounds, nothing (20_memory.md R44). -/
def unplot (fb : Memory) (x y : Int) : Memory :=
  if inBounds x y then fbWrite fb (pageOf y) x (fbRead fb (pageOf y) x &&& ~~~ maskOf y) else fb

/-- `Toggle(x, y)`: invert one pixel; out of bounds, nothing (20_memory.md R45). -/
def toggle (fb : Memory) (x y : Int) : Memory :=
  if inBounds x y then fbWrite fb (pageOf y) x (fbRead fb (pageOf y) x ^^^ maskOf y) else fb

/-- `Test(x, y)`: the pixel's value; out of bounds, 0 (20_memory.md R46). -/
def testPixel (fb : Memory) (x y : Int) : Bool :=
  if inBounds x y then (fbRead fb (pageOf y) x).getLsbD (bitOf y) else false

/-- `OrByte(p, c, v)`: merge a byte; out of bounds, nothing (20_memory.md R47). -/
def orByte (fb : Memory) (p c : Int) (v : Byte) : Memory :=
  if byteInBounds p c then fbWrite fb p c (fbRead fb p c ||| v) else fb

/-- `Plot` at every point of a list, in order. -/
def plotAll (fb : Memory) (ps : List Point) : Memory := ps.foldl (fun m q => plot m q.1 q.2) fb

/-- `Unplot` at every point of a list, in order. -/
def unplotAll (fb : Memory) (ps : List Point) : Memory := ps.foldl (fun m q => unplot m q.1 q.2) fb

/-- `Toggle` at every point of a list, in order. -/
def toggleAll (fb : Memory) (ps : List Point) : Memory := ps.foldl (fun m q => toggle m q.1 q.2) fb

/-- `HSpan(xl, xr, y)`: plot a horizontal run (20_memory.md R48). -/
def hspan (fb : Memory) (xl xr y : Int) : Memory := plotAll fb (spanPoints xl xr y)

/-- Write every framebuffer byte: each becomes `f` of its old value (the double loop of 40_pixel_ops.md R90, R92). -/
def mapBytes (f : Byte → Byte) (fb : Memory) : Memory :=
  Memory.tabulate (fun a => f (Memory.read fb a)) Config.fbSize 0

/-- `MemRead(IMG, addr, 1)`: total, never faults (20_memory.md R50). -/
def imgRead (img : Memory) (addr : Nat) : Byte := Memory.read img addr

/-! ## Answering a command -/

/-- Deliver the command's one response, after its last framebuffer write, and become idle (30_encoding.md R64,
10_state.md R33). -/
def State.respond (s : State) (st : Status) (data : Byte) : State :=
  { s with responses := s.responses ++ [⟨st, data⟩], busy := false }

/-- A drawing command is done: the framebuffer is the new one and the response is (OK, 0x00) (30_encoding.md R74). -/
def State.drawn (s : State) (fb : Memory) : State := State.respond { s with fb := fb } .ok 0#8

/-- A reading command is done: the framebuffer is unchanged and the response is (OK, data) (30_encoding.md R74). -/
def State.answered (s : State) (data : Byte) : State := s.respond .ok data

/-- TAKING THE EXCEPTION: `raise IllegalCommand` (60_exceptions.md R171): the framebuffer is unchanged, no image byte is
read, the response is (ILLEGAL, 0x00), the block is idle. Nothing is saved, no mode changes, control goes nowhere
(R175), so there is nothing to return from (R176). -/
def State.raiseIllegal (s : State) : State := s.respond .illegal 0#8

/-! ## Taking an input -/

/-- A command word is accepted from the head of the port: the block becomes busy (10_state.md R33,
70_reset_and_hazards.md R195). -/
def State.accept (s : State) (rest : List Input) : State := { s with inputs := rest, busy := true }

/-- The reset input (70_reset_and_hazards.md R190): idle, any command in flight abandoned without a response, every
framebuffer byte unspecified; IMG is not touched (R191). -/
def State.takeReset (s : State) (rest : List Input) : State :=
  { s with
    fb := Memory.tabulate (Config.resetByte s.resets) Config.fbSize 0
    busy := false
    inputs := rest
    resets := s.resets + 1 }

/-- The platform stores a byte of the image space (10_state.md R31, R34). -/
def State.takeImageWrite (s : State) (a : ImgAddr) (b : Byte) (rest : List Input) : State :=
  { s with img := Memory.write s.img a.toNat b, inputs := rest }

/-- The word that `step` decodes next: the one at the head of the port, if a word is there and the block is idle
(70_reset_and_hazards.md R195). -/
def State.fetch (s : State) : Option (CmdWord × List Input) :=
  match s.busy, s.inputs with
  | false, .command w :: rest => some (w, rest)
  | _, _ => none

end Sys2Proof.Machine
end

