-- ==== Sys2Proof/Machine/Blit.lean ====
section
/-! DEFINITION. The image blitter: BLIT (41_blit.md R110 to R119). -/

namespace Sys2Proof.Machine

/-- The part of a source byte that goes to page `page + j`: `(b << shift) & 0xFF` (41_blit.md R110). -/
def lowPart (b : Byte) (shift : Nat) : Byte := b <<< shift

/-- The part of a source byte that goes to page `page + j + 1`: `b >> (8 - shift)`, 0 when shift = 0
(41_blit.md R110, R114). -/
def highPart (b : Byte) (shift : Nat) : Byte := b >>> (8 - shift)

/-- Merge source byte (j, i): the body of step 2's double loop. A source column off the panel is skipped; each of
the two writes is bounds-checked on its own (41_blit.md R110, R116). -/
def blitByte (img : Memory) (x y : Int) (w src j i : Nat) (fb : Memory) : Memory :=
  let col := x + i
  if 0 ≤ col ∧ col ≤ 127 then
    let b := imgRead img (imageAddress src w j i)
    orByte (orByte fb (pageOf y + j) col (lowPart b (bitOf y))) (pageOf y + j + 1) col (highPart b (bitOf y))
  else fb

/-- Merge band `j`: its `w` source bytes, left to right (41_blit.md R110). -/
def blitBand (img : Memory) (x y : Int) (w src j : Nat) (fb : Memory) : Memory :=
  (List.range w).foldl (fun m i => blitByte img x y w src j i m) fb

/-- Step 2: merge the `ceil(H/8)` bands, top to bottom; no mask for the bitmap's height (41_blit.md R110, R115). -/
def blitBands (img : Memory) (x y : Int) (w h src : Nat) (fb : Memory) : Memory :=
  (List.range (bandCount h)).foldl (fun m j => blitBand img x y w src j m) fb

/-- `BLIT x, y, w, h, src`: clear the destination rectangle, then merge the bands (41_blit.md R110). -/
def execBlit (x y : Int) (w h src : Nat) (s : State) : Host.Outcome State Fault Refusal :=
  .next (s.drawn (blitBands s.img x y w h src (unplotAll s.fb (rectPoints x y w h))))

end Sys2Proof.Machine
end

