-- ==== Sys2Proof/Machine/Circle.lean ====
section
/-! DEFINITION. The circle rasterizer: CIRC, CIRCF (43_circle.md R130 to R135). -/

namespace Sys2Proof.Machine

/-- A point of the octant sequence with its decision value (43_circle.md R131). -/
structure OctPoint where
  x : Int
  y : Int
  d : Int
  deriving DecidableEq, Repr

/-- One step of the octant generator: east when `d < 0`, else south-east, with the new x and y in the update
(43_circle.md R131). -/
def octNext (q : OctPoint) : OctPoint :=
  let x := q.x + 1
  if q.d < 0 then ⟨x, q.y, q.d + 2 * x + 1⟩ else ⟨x, q.y - 1, q.d + 2 * (x - (q.y - 1)) + 1⟩

/-- The sequence from `q` on: `while x < y`. The first argument bounds the steps (log entry 10). -/
def octFrom : Nat → OctPoint → List OctPoint
  | 0, q => [q]
  | n + 1, q => if q.x < q.y then q :: octFrom n (octNext q) else [q]

/-- `Oct(R)` (43_circle.md R131). `x` rises by 1 a step and `y` never rises above R, so R steps suffice. -/
def oct (r : Nat) : List OctPoint := octFrom r ⟨0, r, 1 - r⟩

/-- The eight mirror points of `Plot8(x, y)` about (X, Y) (43_circle.md R130). -/
def mirror8 (cx cy x y : Int) : List Point :=
  [(cx + x, cy + y), (cx - x, cy + y), (cx + x, cy - y), (cx - x, cy - y),
   (cx + y, cy + x), (cx - y, cy + x), (cx + y, cy - x), (cx - y, cy - x)]

/-- `Plot8` (43_circle.md R130). -/
def plot8 (cx cy : Int) (fb : Memory) (q : OctPoint) : Memory := plotAll fb (mirror8 cx cy q.x q.y)

/-- `Plot8` and the two span pairs of the filled circle (43_circle.md R132). -/
def fill8 (cx cy : Int) (fb : Memory) (q : OctPoint) : Memory :=
  let m := plot8 cx cy fb q
  let m := hspan m (cx - q.x) (cx + q.x) (cy + q.y)
  let m := hspan m (cx - q.x) (cx + q.x) (cy - q.y)
  let m := hspan m (cx - q.y) (cx + q.y) (cy + q.x)
  hspan m (cx - q.y) (cx + q.y) (cy - q.x)

/-- `CIRC x, y, r` (43_circle.md R130). -/
def execCirc (x y : Int) (r : Nat) (s : State) : Host.Outcome State Fault Refusal :=
  .next (s.drawn ((oct r).foldl (plot8 x y) s.fb))

/-- `CIRCF x, y, r` (43_circle.md R132). -/
def execCircf (x y : Int) (r : Nat) (s : State) : Host.Outcome State Fault Refusal :=
  .next (s.drawn ((oct r).foldl (fill8 x y) s.fb))

end Sys2Proof.Machine
end

