-- ==== Sys2Proof/Machine/Ellipse.lean ====
section
/-! DEFINITION. The ellipse rasterizer: ELPS, ELPSF (44_ellipse.md R140 to R148). -/

namespace Sys2Proof.Machine

/-- `D1(x, y) = 4·F(x + 1, y - ½)` (44_ellipse.md R141). -/
def ellD1 (a b x y : Int) : Int := 4 * (b * b) * (x + 1) ^ 2 + a * a * (2 * y - 1) ^ 2 - 4 * (a * a) * (b * b)

/-- `D2(x, y) = 4·F(x + ½, y - 1)` (44_ellipse.md R141). -/
def ellD2 (a b x y : Int) : Int := b * b * (2 * x + 1) ^ 2 + 4 * (a * a) * (y - 1) ^ 2 - 4 * (a * a) * (b * b)

/-- The region-1 test: slope magnitude below 1, `2·b2·(x + 1) < a2·(2·y - 1)` (44_ellipse.md R140). -/
def inRegion1 (a b x y : Int) : Bool := decide (2 * (b * b) * (x + 1) < a * a * (2 * y - 1))

/-- A region-1 step: east when `D1 < 0`, else south-east (44_ellipse.md R140). -/
def ellStep1 (a b : Int) (q : Point) : Point :=
  if ellD1 a b q.1 q.2 < 0 then (q.1 + 1, q.2) else (q.1 + 1, q.2 - 1)

/-- A region-2 step: south-east when `D2 < 0`, else south (44_ellipse.md R140). -/
def ellStep2 (a b : Int) (q : Point) : Point :=
  if ellD2 a b q.1 q.2 < 0 then (q.1 + 1, q.2 - 1) else (q.1, q.2 - 1)

/-- The points of region 1 from `q` on, `q` itself first: `while` the region-1 test holds. The first argument bounds the
steps (log entry 10). -/
def ellRegion1 (a b : Int) : Nat → Point → List Point
  | 0, q => [q]
  | n + 1, q => if inRegion1 a b q.1 q.2 then q :: ellRegion1 a b n (ellStep1 a b q) else [q]

/-- The points of region 2 after `q`: `while y > 0`; every step lowers y by 1. -/
def ellRegion2 (a b : Int) : Nat → Point → List Point
  | 0, _ => []
  | n + 1, q => if q.2 > 0 then ellStep2 a b q :: ellRegion2 a b n (ellStep2 a b q) else []

/-- The points of region 1, from (0, B). The region-1 test bounds x + 1 by A·A·B when B > 0 and fails at once when
B = 0, so A·A·B steps suffice. -/
def ellWalk1 (a b : Nat) : List Point := ellRegion1 a b (a * a * b) (0, b)

/-- The walk: every point plotted, from (0, B) to `y = 0` (44_ellipse.md R140). -/
def ellWalk (a b : Nat) : List Point :=
  let last := (ellWalk1 a b).getLastD (0, (b : Int))
  ellWalk1 a b ++ ellRegion2 a b last.2.toNat last

/-- The four mirror points of `Plot4(x, y)` about (X, Y) (44_ellipse.md R140). -/
def mirror4 (cx cy x y : Int) : List Point :=
  [(cx + x, cy + y), (cx - x, cy + y), (cx + x, cy - y), (cx - x, cy - y)]

/-- `Plot4` (44_ellipse.md R140). -/
def plot4 (cx cy : Int) (fb : Memory) (q : Point) : Memory := plotAll fb (mirror4 cx cy q.1 q.2)

/-- `Step4`: the outline and the two spans (44_ellipse.md R143). -/
def fill4 (cx cy : Int) (fb : Memory) (q : Point) : Memory :=
  let m := plot4 cx cy fb q
  let m := hspan m (cx - q.1) (cx + q.1) (cy + q.2)
  hspan m (cx - q.1) (cx + q.1) (cy - q.2)

/-- `ELPS x, y, a, b` (44_ellipse.md R140). -/
def execElps (x y : Int) (a b : Nat) (s : State) : Host.Outcome State Fault Refusal :=
  .next (s.drawn ((ellWalk a b).foldl (plot4 x y) s.fb))

/-- `ELPSF x, y, a, b` (44_ellipse.md R143). -/
def execElpsf (x y : Int) (a b : Nat) (s : State) : Host.Outcome State Fault Refusal :=
  .next (s.drawn ((ellWalk a b).foldl (fill4 x y) s.fb))

end Sys2Proof.Machine
end

