-- ==== Sys2Proof/Machine/Line.lean ====
section
/-! DEFINITION. The line rasterizer: LINE (42_line.md R120 to R125). -/

namespace Sys2Proof.Machine

/-- A line on its way to the first octant: its two ends and the two flags (42_line.md R122). -/
structure LineSetup where
  x0 : Int
  y0 : Int
  x1 : Int
  y1 : Int
  yflag : Bool
  xyflag : Bool
  deriving DecidableEq, Repr

/-- Transform 1: exchange the two ends so that the line runs toward +x; needs no undoing (42_line.md R122). -/
def lineExchange (l : LineSetup) : LineSetup :=
  if l.x0 > l.x1 then { l with x0 := l.x1, y0 := l.y1, x1 := l.x0, y1 := l.y0 } else l

/-- Transform 2: negate y so that the line runs toward +y (42_line.md R122). -/
def lineReflect (l : LineSetup) : LineSetup :=
  if l.y0 > l.y1 then { l with y0 := -l.y0, y1 := -l.y1, yflag := true } else l

/-- Transform 3: swap x and y so that the slope is at most 1 (42_line.md R122). -/
def lineSwap (l : LineSetup) : LineSetup :=
  if l.y1 - l.y0 > l.x1 - l.x0 then { l with x0 := l.y0, y0 := l.x0, x1 := l.y1, y1 := l.x1, xyflag := true } else l

/-- The three transforms in their order (42_line.md R122). -/
def lineNormalize (x0 y0 x1 y1 : Int) : LineSetup :=
  lineSwap (lineReflect (lineExchange ⟨x0, y0, x1, y1, false, false⟩))

/-- The panel point of a working point: undo the swap, then the negation (42_line.md R122, `Emit`). -/
def lineEmit (yflag xyflag : Bool) (x y : Int) : Point :=
  match yflag, xyflag with
  | true, true => (y, -x)
  | true, false => (x, -y)
  | false, true => (y, x)
  | false, false => (x, y)

/-- A running point of the recurrence with its decision variable. -/
structure LinePoint where
  x : Int
  y : Int
  d : Int
  deriving DecidableEq, Repr

/-- One step of the recurrence: east when `d < 0`, else north-east (42_line.md R122). -/
def lineNext (dx dy : Int) (q : LinePoint) : LinePoint :=
  if q.d < 0 then ⟨q.x + 1, q.y, q.d + 2 * dy⟩ else ⟨q.x + 1, q.y + 1, q.d + 2 * (dy - dx)⟩

/-- The running points from `q` on, `n` steps: the loop `while x < x1` makes `x1 - x` steps (42_line.md R122). -/
def lineFrom (dx dy : Int) : Nat → LinePoint → List LinePoint
  | 0, q => [q]
  | n + 1, q => q :: lineFrom dx dy n (lineNext dx dy q)

/-- The running points of a normalised line, from its first end to its other end. -/
def lineRun (l : LineSetup) : List LinePoint :=
  let dx := l.x1 - l.x0
  let dy := l.y1 - l.y0
  lineFrom dx dy dx.toNat ⟨l.x0, l.y0, 2 * dy - dx⟩

/-- The points emitted for a line that is neither horizontal nor vertical (42_line.md R122). -/
def slantedPoints (x0 y0 x1 y1 : Int) : List Point :=
  let l := lineNormalize x0 y0 x1 y1
  (lineRun l).map (fun q => lineEmit l.yflag l.xyflag q.x q.y)

/-- `LinePixels(X0, Y0, X1, Y1)`: horizontal case, vertical case, every other line (42_line.md R120, R121, R122). -/
def linePixels (x0 y0 x1 y1 : Int) : List Point :=
  if y0 = y1 then (intRange (min x0 x1) (max x0 x1)).map (fun x => (x, y0))
  else if x0 = x1 then (intRange (min y0 y1) (max y0 y1)).map (fun y => (x0, y))
  else slantedPoints x0 y0 x1 y1

/-- `LINE x0, y0, x1, y1` (42_line.md R120). -/
def execLine (x0 y0 x1 y1 : Int) (s : State) : Host.Outcome State Fault Refusal :=
  .next (s.drawn (plotAll s.fb (linePixels x0 y0 x1 y1)))

end Sys2Proof.Machine
end

