-- ==== Sys2Proof/Machine/Pixel.lean ====
section
/-! DEFINITION. The pixel pipeline: CLR, CLRA, INV, INVA, SETP, GETP, RDB (40_pixel_ops.md R90 to R96). -/

namespace Sys2Proof.Machine

/-- `CLR`: every byte becomes 0x00, whatever it was (40_pixel_ops.md R90). -/
def execClr (s : State) : Host.Outcome State Fault Refusal :=
  .next (s.drawn (mapBytes (fun _ => 0#8) s.fb))

/-- `CLRA x, y, w, h`: `Unplot` at every pixel of the rectangle (40_pixel_ops.md R91). -/
def execClra (x y : Int) (w h : Nat) (s : State) : Host.Outcome State Fault Refusal :=
  .next (s.drawn (unplotAll s.fb (rectPoints x y w h)))

/-- `INV`: every byte becomes its complement (40_pixel_ops.md R92). -/
def execInv (s : State) : Host.Outcome State Fault Refusal :=
  .next (s.drawn (mapBytes (fun b => b ^^^ 0xFF#8) s.fb))

/-- `INVA x, y, w, h`: `Toggle` at every pixel of the rectangle (40_pixel_ops.md R93). -/
def execInva (x y : Int) (w h : Nat) (s : State) : Host.Outcome State Fault Refusal :=
  .next (s.drawn (toggleAll s.fb (rectPoints x y w h)))

/-- `SETP x, y`: `Plot` (40_pixel_ops.md R94). -/
def execSetp (x y : Int) (s : State) : Host.Outcome State Fault Refusal :=
  .next (s.drawn (plot s.fb x y))

/-- `GETP x, y`: answer `zext_8(Test(X, Y))` (40_pixel_ops.md R95). -/
def execGetp (x y : Int) (s : State) : Host.Outcome State Fault Refusal :=
  .next (s.answered (pixelByte (testPixel s.fb x y)))

/-- The byte RDB answers: `FB[PAGE][COL]`, or 0x00 when PAGE > 7 or COL > 127 (40_pixel_ops.md R96). -/
def readOut (fb : Memory) (page col : Nat) : Byte :=
  if page ≤ 7 ∧ col ≤ 127 then fbRead fb page col else 0#8

/-- `RDB page, col` (40_pixel_ops.md R96). -/
def execRdb (page col : Nat) (s : State) : Host.Outcome State Fault Refusal :=
  .next (s.answered (readOut s.fb page col))

end Sys2Proof.Machine
end

