-- ==== Sys2Proof/Machine/Dispatch.lean ====
section
/-! DEFINITION. One arm per command: each calls its meaning. -/

namespace Sys2Proof.Machine

def exec (i : Instr) (s : State) : Host.Outcome State Fault Refusal :=
  match i with
  | .clr => Sys2Proof.Machine.execClr s
  | .clra x y w h => Sys2Proof.Machine.execClra x y w h s
  | .inv => Sys2Proof.Machine.execInv s
  | .inva x y w h => Sys2Proof.Machine.execInva x y w h s
  | .setp x y => Sys2Proof.Machine.execSetp x y s
  | .getp x y => Sys2Proof.Machine.execGetp x y s
  | .rdb page col => Sys2Proof.Machine.execRdb page col s
  | .blit x y w h src => Sys2Proof.Machine.execBlit x y w h src s
  | .line x0 y0 x1 y1 => Sys2Proof.Machine.execLine x0 y0 x1 y1 s
  | .circ x y r => Sys2Proof.Machine.execCirc x y r s
  | .circf x y r => Sys2Proof.Machine.execCircf x y r s
  | .elps x y a b => Sys2Proof.Machine.execElps x y a b s
  | .elpsf x y a b => Sys2Proof.Machine.execElpsf x y a b s

end Sys2Proof.Machine
end

