-- ==== Sys2Proof/Machine/Step.lean ====
section
/-! DEFINITION. One step of the machine: take the oldest thing presented. A command word is decoded and run whole
(60_exceptions.md R184: one step is one command). -/

namespace Sys2Proof.Machine

/-- One step. Nothing presented: the block stays idle. A command word is taken only when the block is idle, and waits
otherwise (70_reset_and_hazards.md R195); an illegal one raises IllegalCommand (30_encoding.md R68). -/
def step (s : State) : Host.Outcome State Fault Refusal :=
  match s.inputs with
  | [] => .next s
  | .reset _ :: rest => .next (s.takeReset rest)
  | .imageWrite a b :: rest => .next (s.takeImageWrite a b rest)
  | .command _ :: _ =>
    match s.fetch with
    | none => .next s
    | some (w, rest) =>
      match decode w with
      | .ok i => exec i (s.accept rest)
      | .error _ => .next (s.accept rest).raiseIllegal

/-- The state with a table word presented at the head of the command port of the idle block, so that the very next step
runs it (log entry 11; the rest of what was presented stands behind it). -/
def State.withFetchWord (s : State) (nbits w : Nat) : State :=
  { s with inputs := .command (BitVec.ofNat 96 (w % 2 ^ nbits)) :: s.inputs, busy := false }

end Sys2Proof.Machine
end

