-- ==== Sys2Proof/Machine/Pseudo.lean ====
section
/-! DEFINITION. The five host-side pseudo-instructions (48_boundary_collaborators.md R150 to R153, R156, R157): what an
assembler replaces each by. They add no state and no behaviour to FBE; a program holds their expansions. -/

namespace Sys2Proof.Machine

/-- A pseudo-instruction with its operands (30_encoding.md R72). -/
inductive Pseudo where
  /-- Rectangle outline (R151). -/
  | rect (x y : Int) (w h : Nat)
  /-- Filled rectangle (R152). -/
  | rectf (x y : Int) (w h : Nat)
  /-- Triangle outline (R153). -/
  | tri (x0 y0 x1 y1 x2 y2 : Int)
  /-- Read-out for the full update (R156). -/
  | sync
  /-- Read-out for the partial update (R157). -/
  | synca (x y : Int) (w h : Nat)
  deriving DecidableEq, Repr

/-- The operands are in the ranges of R150. -/
def Pseudo.operandsOk : Pseudo → Bool
  | .rect x y w h => coordOk x && coordOk y && dimOk w && dimOk h
  | .rectf x y w h => coordOk x && coordOk y && dimOk w && dimOk h
  | .tri x0 y0 x1 y1 x2 y2 => coordOk x0 && coordOk y0 && coordOk x1 && coordOk y1 && coordOk x2 && coordOk y2
  | .sync => true
  | .synca x y w h => coordOk x && coordOk y && dimOk w && dimOk h

/-- The far edge that an expansion computes, `(x + w - 1, y + h - 1)`, is a pair of coordinates (R150; log entry 13). An
empty rectangle has no far edge. -/
def farEdgeOk (x y : Int) (w h : Nat) : Bool :=
  decide (w = 0) || decide (h = 0) || (coordOk (x + w - 1) && coordOk (y + h - 1))

/-- The assembler takes the line: operands and computed coordinates in range (R150). -/
def Pseudo.accepted (q : Pseudo) : Bool :=
  q.operandsOk && match q with
    | .rect x y w h => farEdgeOk x y w h
    | .rectf _ _ _ _ => true
    | .tri _ _ _ _ _ _ => true
    | .sync => true
    | .synca x y w h => farEdgeOk x y w h

/-- `RDB page, col` for every page of `p0 .. p1` and every column of `c0 .. c1`, page by page (R156, R157). -/
def readOutRange (p0 p1 c0 c1 : Int) : List Instr :=
  (intRange p0 p1).flatMap (fun p => (intRange c0 c1).map (fun c => Instr.rdb p.toNat c.toNat))

/-- The commands of the expansion, in the order issued. -/
def Pseudo.commands : Pseudo → List Instr
  | .rect x y w h =>
    if w = 0 ∨ h = 0 then []
    else
      let xr := x + w - 1
      let yb := y + h - 1
      [.line x y xr y, .line x yb xr yb, .line x y x yb, .line xr y xr yb]
  | .rectf x y w h => [.clra x y w h, .inva x y w h]
  | .tri x0 y0 x1 y1 x2 y2 => [.line x0 y0 x1 y1, .line x1 y1 x2 y2, .line x2 y2 x0 y0]
  | .sync => readOutRange 0 7 0 127
  | .synca x y w h =>
    if w = 0 ∨ h = 0 then []
    else readOutRange (max 0 (pageOf y)) (min 7 (pageOf (y + h - 1))) (max 0 x) (min 127 (x + w - 1))

/-- The expansion, or none where the assembler rejects the line (R150). -/
def Pseudo.expand (q : Pseudo) : Option (List Instr) := if q.accepted then some q.commands else none

end Sys2Proof.Machine
end

