-- ==== Sys2Proof/Safety.lean ====
section
/-! DEFINITION. What the claims call a good state and a safe step. FBE never stops (60_exceptions.md R184), so a safe run is
one whose states keep the invariant. -/

namespace Sys2Proof.Machine

/-- Both memories are in canonical form inside their address spaces. -/
abbrev State.MemoriesOk (s : State) : Prop :=
  Memory.wf Config.fbSize s.fb = true ∧ Memory.wf Config.imgSize s.img = true

/-- A good state between two commands: canonical memories, and the block idle, since every command has delivered its
response (10_state.md R33, R35). -/
abbrev State.Inv (s : State) : Prop := s.MemoriesOk ∧ s.busy = false

/-- The step of a good state answers a next state, which is good. -/
def SafeStep (s : State) : Prop := ∃ t, step s = .next t ∧ t.Inv

/-- A pixel of a state's framebuffer (20_memory.md R46). -/
def State.pixel (s : State) (x y : Int) : Bool := testPixel s.fb x y

/-- A byte of a state's framebuffer: `FB[p][c]`. -/
def State.fbByte (s : State) (p c : Int) : Byte := fbRead s.fb p c

/-- Everything of the state but the framebuffer, the responses and the busy bit is the same. -/
def State.SameRest (s t : State) : Prop := t.img = s.img ∧ t.inputs = s.inputs ∧ t.resets = s.resets

/-- The command is done: idle again, and one response more than before, with this status and data (30_encoding.md R64). -/
def State.Answered (s t : State) (st : Status) (data : Byte) : Prop :=
  t.busy = false ∧ t.responses = s.responses ++ [⟨st, data⟩]

/-- What every drawing command leaves besides the framebuffer: the response (OK, 0x00), the block idle, the rest of the
state as it was (30_encoding.md R74). -/
def State.Drew (s t : State) : Prop := s.SameRest t ∧ s.Answered t .ok 0#8

/-- The commands that may change the framebuffer (30_encoding.md R74). -/
def drawingCommand : Instr → Bool
  | .getp _ _ => false
  | .rdb _ _ => false
  | _ => true

/-- `RowMask(p)`: bit `k` is 1 exactly when row 8 p + k is one of the rows Y .. Y + H - 1 (40_pixel_ops.md R99). -/
def rowMask (y : Int) (h : Nat) (p : Int) : Byte :=
  (List.range 8).foldl (fun (m : Byte) (k : Nat) =>
    if y ≤ 8 * p + (k : Int) ∧ 8 * p + (k : Int) ≤ y + h - 1 then m ||| (1#8 <<< k) else m) 0#8

/-- Run a list of commands one after another, each from the state the one before left (20_memory.md R54). -/
def execAll : List Instr → State → Host.Outcome State Fault Refusal
  | [], s => .next s
  | i :: is, s =>
    match exec i s with
    | .next t => execAll is t
    | .fault r => .fault r
    | .refused r => .refused r

end Sys2Proof.Machine
end

