-- ==== Sys2Proof/Certificates/Slice0/Obligations.lean ====
section
/-! DEFINITION. The statements for the provers, from the numbered rules of spec/. `s.MemoriesOk` (both memories in canonical
form) is the one premise on states; that every step keeps it is a statement of its own. -/

open Sys2Proof Sys2Proof.Machine

/-! ## The command word -/

/-- Decoding the word of a well-formed command gives the command back, every operand whole. -/
def Obligations.DecodeOfEncode : Prop :=
  ∀ i : Instr, i.wf = true → decode (encode i) = .ok i

/-- A legal word is the word of the command it decodes to: no bit of it is dropped, and no two words mean one command. -/
def Obligations.EncodeOfDecode : Prop :=
  ∀ (c : CmdWord) (i : Instr), decode c = .ok i → encode i = c ∧ i.wf = true

/-- 30_encoding.md R66: a word is the command of a row exactly when `C & mask = match`; one row at most matches. -/
def Obligations.DecodeMatchesOpcodeTable : Prop :=
  ∀ c : CmdWord, ((opcodeTable.filter (fun r => r.selects c)).map OpcodeRow.mnemonic) =
    match decode c with
    | .ok i => [i.mnemonic]
    | .error _ => []

/-- 30_encoding.md R68: the words that are illegal. That an unassigned opcode's error carries the opcode's name is the
model's choice (log entry 12): the spec knows one IllegalCommand for all of them (60_exceptions.md R171, R173). -/
def Obligations.ReservedAndUnassignedWordsAreIllegal : Prop :=
  (∀ c : CmdWord, (∀ r ∈ opcodeTable, r.selects c = false) ↔ ∃ e, decode c = .error e) ∧
  (∀ c : CmdWord, (opField c = 0x00#8 ∨ 0x0C ≤ (opField c).toNat) → decode c = .error (.unassignedOpcode (opField c))) ∧
  (∀ (c : CmdWord) (r : OpcodeRow) (name : FieldName), r ∈ opcodeTable → opField c = opField r.pattern →
    name ∈ r.format.reserved → name.isZero c = false → ∃ e, decode c = .error e) ∧
  (∀ c : CmdWord, flField c >>> 1 ≠ 0#8 → ∃ e, decode c = .error e) ∧
  (∀ c : CmdWord, fillFlag c = true → opField c ≠ 0x0A#8 → opField c ≠ 0x0B#8 → ∃ e, decode c = .error e) ∧
  (∃ e, decode 0#96 = .error e) ∧ (∃ e, decode (BitVec.allOnes 96) = .error e)

/-- 30_encoding.md R73: the worked encodings, both ways. -/
def Obligations.WorkedEncodings : Prop :=
  ∀ e ∈ [ (Instr.setp 5 10, 0x050000000005000A00000000#96),
          (Instr.setp (-1) 0, 0x05000000FFFF000000000000#96),
          (Instr.clra 2 6 3 4, 0x020003040002000600000000#96),
          (Instr.rdb 1 127, 0x0700017F0000000000000000#96),
          (Instr.blit 10 (-3) 8 16 0x20001000, 0x08000810000AFFFD20001000#96),
          (Instr.line 0 0 7 3, 0x090000000000000000070003#96),
          (Instr.circf 64 32 10, 0x0A010A000040002000000000#96),
          (Instr.elps 64 32 20 10, 0x0B00140A0040002000000000#96) ],
    encode e.1 = e.2 ∧ decode e.2 = .ok e.1

/-- 30_encoding.md R64: the places of status and data in the response word; the illegal response is 0x100. -/
def Obligations.ResponseWordLayout : Prop :=
  (∀ r : Response, r.word.extractLsb' 0 8 = r.data ∧
    r.word.extractLsb' 8 2 = (match r.status with | .ok => 0#2 | .illegal => 1#2)) ∧
  (Response.word ⟨.illegal, 0x00#8⟩ = 0x100#10) ∧ (Response.word ⟨.ok, 0x01#8⟩ = 0x001#10)

/-! ## The step -/

/-- A step of the idle block with a legal word at the port runs the decoded command, the word taken and busy set. -/
def Obligations.StepRunsDecodedCommand : Prop :=
  ∀ (s : State) (w : CmdWord) (rest : List Input) (i : Instr), s.busy = false → s.inputs = .command w :: rest →
    decode w = .ok i → step s = exec i { s with inputs := rest, busy := true }

/-- 60_exceptions.md R171: a word that matches no row changes nothing and answers (ILLEGAL, 0x00). -/
def Obligations.IllegalWordOnlyAnswers : Prop :=
  ∀ (s : State) (w : CmdWord) (rest : List Input), s.busy = false → s.inputs = .command w :: rest →
    (∀ r ∈ opcodeTable, r.selects w = false) →
    step s = .next { s with inputs := rest, busy := false, responses := s.responses ++ [⟨.illegal, 0x00#8⟩] }

/-- 70_reset_and_hazards.md R195, for every state between two commands: a step takes at most the oldest of what is
presented; the block is busy with a command word from its acceptance to its response, with the words behind it waiting;
none of them is dropped, reordered or merged, and the block is idle again after it. (inputs as a list, and busy inside the
step only, are the model's form: log entries 5 and 6.) -/
def Obligations.WordWaitsWhileBusy : Prop :=
  ∀ s t : State, s.busy = false → step s = .next t → t.busy = false ∧
    (s.inputs = [] → t = s) ∧
    (∀ first rest, s.inputs = first :: rest → t.inputs = rest) ∧
    (∀ w rest, s.inputs = .command w :: rest →
      (∃ r, t.responses = s.responses ++ [r]) ∧
      ∀ i, decode w = .ok i → ∃ u : State, u.busy = true ∧ u.inputs = rest ∧ u.fb = s.fb ∧ u.img = s.img ∧
        u.responses = s.responses ∧ exec i u = .next t)

/-- The reset input (70_reset_and_hazards.md R190, R191) in the model's form: idle, no response for a word in flight, IMG
untouched, and every framebuffer byte a free value (log entry 2). -/
def Obligations.ResetInputLeavesFreeFramebuffer : Prop :=
  ∀ (s : State) (inFlight : Option CmdWord) (rest : List Input), s.inputs = .reset inFlight :: rest →
    ∃ t, step s = .next t ∧ t.busy = false ∧ t.inputs = rest ∧ t.responses = s.responses ∧ t.img = s.img ∧
      t.resets = s.resets + 1 ∧ Memory.wf Config.fbSize t.fb = true ∧
      ∀ p c, byteInBounds p c = true → t.fbByte p c = Config.resetByte s.resets (cellOf p c)

/-- The platform's write (log entry 5): one byte of IMG, nothing else. -/
def Obligations.PlatformWriteChangesOneImageByte : Prop :=
  ∀ (s : State) (a : ImgAddr) (b : Byte) (rest : List Input), s.MemoriesOk → s.inputs = .imageWrite a b :: rest →
    ∃ t, step s = .next t ∧ t.fb = s.fb ∧ t.busy = s.busy ∧ t.inputs = rest ∧ t.responses = s.responses ∧
      t.resets = s.resets ∧ ∀ n, imgRead t.img n = if n = a.toNat then b else imgRead s.img n

/-- 60_exceptions.md R184: no state in which the machine stops. -/
def Obligations.StepNeverStops : Prop :=
  ∀ s : State, ∃ t, step s = .next t

/-- The invariant holds after reset, for every framebuffer and image space in canonical form (10_state.md R35). -/
def Obligations.InvariantAtReset : Prop :=
  State.reset.Inv ∧
  ∀ fb img : Memory, Memory.wf Config.fbSize fb = true → Memory.wf Config.imgSize img = true →
    (State.resetWith fb img).Inv ∧ (State.resetWith fb img).responses = [] ∧ (State.resetWith fb img).inputs = []

/-- Every step of a good state gives a good state: canonical memories inside their address spaces, the block idle. -/
def Obligations.StepKeepsInvariant : Prop :=
  ∀ s t : State, s.Inv → step s = .next t → t.Inv

/-- 10_state.md R25: nothing but reset and FBE commands changes the framebuffer; and of the commands only a legal
drawing one (30_encoding.md R74). -/
def Obligations.OnlyResetAndDrawingCommandsChangeFramebuffer : Prop :=
  ∀ s t : State, step s = .next t → t.fb ≠ s.fb →
    (∃ f rest, s.inputs = .reset f :: rest) ∨
    (∃ w rest i, s.busy = false ∧ s.inputs = .command w :: rest ∧ decode w = .ok i ∧ drawingCommand i = true)

/-- 30_encoding.md R64: exactly one response for every command accepted, none for anything else, none lost. -/
def Obligations.OneResponsePerAcceptedWord : Prop :=
  ∀ s t : State, step s = .next t →
    ((∃ w rest, s.busy = false ∧ s.inputs = .command w :: rest) → ∃ r, t.responses = s.responses ++ [r]) ∧
    (¬(∃ w rest, s.busy = false ∧ s.inputs = .command w :: rest) → t.responses = s.responses)

/-- 20_memory.md R54, 60_exceptions.md R184: a list of words presented to the idle block is taken in order, one step each,
each answered once, ILLEGAL exactly for a word that does not decode. -/
def Obligations.WordsAreAnsweredInOrder : Prop :=
  ∀ (ws : List CmdWord) (s : State), s.busy = false → s.inputs = ws.map Input.command →
    ∃ t rs, core.run ws.length s = .next t ∧ t.inputs = [] ∧ t.busy = false ∧ t.responses = s.responses ++ rs ∧
      rs.map Response.status = ws.map (fun w => match decode w with | .ok _ => Status.ok | .error _ => Status.illegal)

/-! ## What every command leaves unchanged -/

/-- Every command completes from every state; it leaves IMG, the inputs and the reset counter, ends idle with one response
more, of status OK, and DATA 0x00 unless it is a reading command; a reading command leaves the framebuffer. -/
def Obligations.CommandFrame : Prop :=
  ∀ (i : Instr) (s : State), ∃ t data, exec i s = .next t ∧ s.SameRest t ∧ s.Answered t .ok data ∧
    (drawingCommand i = true → data = 0x00#8) ∧ (drawingCommand i = false → t.fb = s.fb)

/-- 10_state.md R21, 00_scope.md R12: framebuffer and response after a command depend on nothing but the framebuffer, the
image space and the command; and on the image space only for BLIT (41_blit.md R118 (e)). -/
def Obligations.EffectDependsOnFramebufferAndImage : Prop :=
  ∀ (i : Instr) (s s' : State), s.fb = s'.fb → ((∃ x y w h src, i = .blit x y w h src) → s.img = s'.img) →
    ∃ t t' r, exec i s = .next t ∧ exec i s' = .next t' ∧ t.fb = t'.fb ∧ t.responses = s.responses ++ [r] ∧
      t'.responses = s'.responses ++ [r]

/-! ## The primitives -/

/-- 10_state.md R23: pixels and the bits of the framebuffer correspond one to one. -/
def Obligations.PixelAddressIsBijection : Prop :=
  (∀ x y x' y' : Int, inBounds x y = true → inBounds x' y' = true → cellOf (pageOf y) x = cellOf (pageOf y') x' →
    bitOf y = bitOf y' → x = x' ∧ y = y') ∧
  (∀ a k : Nat, a < Config.fbSize → k < 8 → ∃ x y : Int, inBounds x y = true ∧ cellOf (pageOf y) x = a ∧ bitOf y = k) ∧
  (∀ x y : Int, inBounds x y = true → 0 ≤ pageOf y ∧ pageOf y ≤ 7 ∧ bitOf y ≤ 7 ∧ y = 8 * pageOf y + bitOf y)

/-- 20_memory.md R43: Plot sets one bit of one byte, does nothing out of bounds, is idempotent, and commutes. -/
def Obligations.PlotSetsOneBit : Prop :=
  ∀ (fb : Memory), Memory.wf Config.fbSize fb = true → ∀ x y : Int,
    (inBounds x y = false → plot fb x y = fb) ∧
    (inBounds x y = true → ∀ p c, byteInBounds p c = true → fbRead (plot fb x y) p c =
      if p = y / 8 ∧ c = x then fbRead fb p c ||| (1#8 <<< (y % 8).toNat) else fbRead fb p c) ∧
    plot (plot fb x y) x y = plot fb x y ∧
    ∀ x' y' : Int, plot (plot fb x y) x' y' = plot (plot fb x' y') x y

/-- 20_memory.md R44: Unplot clears one bit of one byte, does nothing out of bounds, is idempotent, and commutes. -/
def Obligations.UnplotClearsOneBit : Prop :=
  ∀ (fb : Memory), Memory.wf Config.fbSize fb = true → ∀ x y : Int,
    (inBounds x y = false → unplot fb x y = fb) ∧
    (inBounds x y = true → ∀ p c, byteInBounds p c = true → fbRead (unplot fb x y) p c =
      if p = y / 8 ∧ c = x then fbRead fb p c &&& ~~~(1#8 <<< (y % 8).toNat) else fbRead fb p c) ∧
    unplot (unplot fb x y) x y = unplot fb x y ∧
    ∀ x' y' : Int, unplot (unplot fb x y) x' y' = unplot (unplot fb x' y') x y

/-- 20_memory.md R45: Toggle inverts one bit of one byte, does nothing out of bounds, undoes itself, and commutes. -/
def Obligations.ToggleInvertsOneBit : Prop :=
  ∀ (fb : Memory), Memory.wf Config.fbSize fb = true → ∀ x y : Int,
    (inBounds x y = false → toggle fb x y = fb) ∧
    (inBounds x y = true → ∀ p c, byteInBounds p c = true → fbRead (toggle fb x y) p c =
      if p = y / 8 ∧ c = x then fbRead fb p c ^^^ (1#8 <<< (y % 8).toNat) else fbRead fb p c) ∧
    toggle (toggle fb x y) x y = fb ∧
    ∀ x' y' : Int, toggle (toggle fb x y) x' y' = toggle (toggle fb x' y') x y

/-- 20_memory.md R47: OrByte ORs one byte, does nothing out of bounds, and equals a Plot for every set bit. -/
def Obligations.OrByteIsPlots : Prop :=
  ∀ (fb : Memory), Memory.wf Config.fbSize fb = true → ∀ (p c : Int) (v : Byte),
    (byteInBounds p c = false → orByte fb p c v = fb) ∧
    (byteInBounds p c = true → ∀ p' c', byteInBounds p' c' = true → fbRead (orByte fb p c v) p' c' =
      if p' = p ∧ c' = c then fbRead fb p c ||| v else fbRead fb p' c') ∧
    orByte fb p c v = plotAll fb (((List.range 8).filter (fun k => v.getLsbD k)).map (fun k : Nat => (c, 8 * p + (k : Int))))

/-! ## The pixel pipeline -/

/-- 40_pixel_ops.md R90: CLR, from every state. -/
def Obligations.ClrZeroesEveryByte : Prop :=
  ∀ s : State, ∃ t, exec .clr s = .next t ∧ s.Drew t ∧
    (∀ p c, byteInBounds p c = true → t.fbByte p c = 0x00#8) ∧
    (∃ u, exec .clr t = .next u ∧ u.fb = t.fb) ∧
    (s.MemoriesOk → exec (.clra 0 0 128 64) s = .next t)

/-- 40_pixel_ops.md R92: INV, from every state. -/
def Obligations.InvComplementsEveryByte : Prop :=
  ∀ s : State, ∃ t, exec .inv s = .next t ∧ s.Drew t ∧
    (∀ p c, byteInBounds p c = true → t.fbByte p c = s.fbByte p c ^^^ 0xFF#8) ∧
    (s.MemoriesOk → (∃ u, exec .inv t = .next u ∧ u.fb = s.fb) ∧ exec (.inva 0 0 128 64) s = .next t)

/-- 40_pixel_ops.md R91, R97, R98: CLRA clears exactly the in-bounds pixels of the rectangle. -/
def Obligations.ClraClearsTheRectangle : Prop :=
  ∀ (s : State) (x y : Int) (w h : Nat), s.MemoriesOk → ∃ t, exec (.clra x y w h) s = .next t ∧ s.Drew t ∧
    (∀ a b, inBounds a b = true → t.pixel a b =
      if x ≤ a ∧ a ≤ x + w - 1 ∧ y ≤ b ∧ b ≤ y + h - 1 then false else s.pixel a b) ∧
    (w = 0 ∨ h = 0 → t.fb = s.fb) ∧
    (∃ u, exec (.clra x y w h) t = .next u ∧ u.fb = t.fb)

/-- 40_pixel_ops.md R93, R97, R98: INVA inverts exactly the in-bounds pixels of the rectangle; twice is the identity. -/
def Obligations.InvaTogglesTheRectangle : Prop :=
  ∀ (s : State) (x y : Int) (w h : Nat), s.MemoriesOk → ∃ t, exec (.inva x y w h) s = .next t ∧ s.Drew t ∧
    (∀ a b, inBounds a b = true → t.pixel a b =
      if x ≤ a ∧ a ≤ x + w - 1 ∧ y ≤ b ∧ b ≤ y + h - 1 then !s.pixel a b else s.pixel a b) ∧
    (w = 0 ∨ h = 0 → t.fb = s.fb) ∧
    (∃ u, exec (.inva x y w h) t = .next u ∧ u.fb = s.fb)

/-- 40_pixel_ops.md R99: the byte-level closed form of CLRA and INVA, one formula for every framebuffer byte. -/
def Obligations.AreaCommandsByteForm : Prop :=
  ∀ (s : State) (x y : Int) (w h : Nat), s.MemoriesOk →
    (∃ t, exec (.clra x y w h) s = .next t ∧ ∀ p c, byteInBounds p c = true → t.fbByte p c =
      if max x 0 ≤ c ∧ c ≤ min (x + w - 1) 127 then s.fbByte p c &&& ~~~ rowMask y h p else s.fbByte p c) ∧
    (∃ t, exec (.inva x y w h) s = .next t ∧ ∀ p c, byteInBounds p c = true → t.fbByte p c =
      if max x 0 ≤ c ∧ c ≤ min (x + w - 1) 127 then s.fbByte p c ^^^ rowMask y h p else s.fbByte p c)

/-- 40_pixel_ops.md R94: SETP, in bounds and out. -/
def Obligations.SetpSetsOnePixel : Prop :=
  ∀ (s : State) (x y : Int), s.MemoriesOk → ∃ t, exec (.setp x y) s = .next t ∧ s.Drew t ∧
    (∀ p c, byteInBounds p c = true → t.fbByte p c =
      if (0 ≤ y ∧ y ≤ 63) ∧ p = y / 8 ∧ c = x then s.fbByte p c ||| (1#8 <<< (y % 8).toNat) else s.fbByte p c) ∧
    (¬(0 ≤ x ∧ x ≤ 127 ∧ 0 ≤ y ∧ y ≤ 63) → t.fb = s.fb) ∧
    (∃ u, exec (.setp x y) t = .next u ∧ u.fb = t.fb)

/-- 40_pixel_ops.md R95: GETP answers the pixel, 0 out of bounds, and changes nothing. -/
def Obligations.GetpAnswersThePixel : Prop :=
  ∀ (s : State) (x y : Int), exec (.getp x y) s = .next { s with
    busy := false
    responses := s.responses ++ [⟨.ok,
      if (0 ≤ x ∧ x ≤ 127 ∧ 0 ≤ y ∧ y ≤ 63) ∧ (s.fbByte (y / 8) x).getLsbD (y % 8).toNat = true
        then 0x01#8 else 0x00#8⟩] }

/-- 40_pixel_ops.md R96: RDB answers the byte, 0 out of range, and changes nothing; bit k of it is a pixel. -/
def Obligations.RdbAnswersTheByte : Prop :=
  ∀ (s : State) (page col : Nat), ∃ data, exec (.rdb page col) s = .next { s with
      busy := false
      responses := s.responses ++ [⟨.ok, data⟩] } ∧
    (page ≤ 7 ∧ col ≤ 127 → data = s.fbByte page col) ∧
    (¬(page ≤ 7 ∧ col ≤ 127) → data = 0x00#8) ∧
    (∀ k < 8, data.getLsbD k = s.pixel col (8 * page + k))

/-- 40_pixel_ops.md R100 (a), (b): set then get answers 1; clear a rectangle then get a pixel of it answers 0. -/
def Obligations.SetOrClearThenGet : Prop :=
  ∀ (s : State) (x y : Int), s.MemoriesOk → inBounds x y = true →
    (∃ t u, exec (.setp x y) s = .next t ∧ exec (.getp x y) t = .next u ∧
      u.responses = s.responses ++ [⟨.ok, 0x00#8⟩, ⟨.ok, 0x01#8⟩]) ∧
    (∀ (rx ry : Int) (w h : Nat), rx ≤ x → x < rx + w → ry ≤ y → y < ry + h →
      ∃ t u, exec (.clra rx ry w h) s = .next t ∧ exec (.getp x y) t = .next u ∧
        u.responses = s.responses ++ [⟨.ok, 0x00#8⟩, ⟨.ok, 0x00#8⟩])

/-! ## The blitter -/

/-- 41_blit.md R117: BLIT pixel by pixel. Inside the rectangle the source bit; below it, in the last band's excess
rows, the old value OR the source bit; elsewhere unchanged. -/
def Obligations.BlitPixelMeaning : Prop :=
  ∀ (s : State) (x y : Int) (w h src : Nat), s.MemoriesOk → ∃ t, exec (.blit x y w h src) s = .next t ∧ s.Drew t ∧
    ∀ a b, inBounds a b = true →
      let bit := (imgRead s.img ((src + ((b - y) / 8).toNat * w + (a - x).toNat) % 2 ^ 32)).getLsbD ((b - y) % 8).toNat
      t.pixel a b =
        if x ≤ a ∧ a ≤ x + w - 1 ∧ y ≤ b ∧ b ≤ y + h - 1 then bit
        else if x ≤ a ∧ a ≤ x + w - 1 ∧ y + h ≤ b ∧ b ≤ y + 8 * ((h + 7) / 8 : Nat) - 1 then s.pixel a b || bit
        else s.pixel a b

/-- 41_blit.md R118 (a), (b): blit then clear the same rectangle leaves it zero; blit twice is blit once. -/
def Obligations.BlitThenClearAndBlitTwice : Prop :=
  ∀ (s : State) (x y : Int) (w h src : Nat), s.MemoriesOk → ∃ t, exec (.blit x y w h src) s = .next t ∧
    (∃ u, exec (.blit x y w h src) t = .next u ∧ u.fb = t.fb) ∧
    (∃ u, exec (.clra x y w h) t = .next u ∧
      ∀ a b, inBounds a b = true → x ≤ a → a < x + w → y ≤ b → b < y + h → u.pixel a b = false)

/-- 41_blit.md R112: BLIT needs source byte (j, i) only when its destination column X + i is in 0 to 127; two image spaces
that agree on those bytes give the same framebuffer. -/
def Obligations.BlitReadsOnlyItsBitmap : Prop :=
  ∀ (s s' : State) (x y : Int) (w h src : Nat), s.fb = s'.fb →
    (∀ j i : Nat, j < (h + 7) / 8 → i < w → 0 ≤ x + i → x + i ≤ 127 →
      imgRead s.img ((src + j * w + i) % 2 ^ 32) = imgRead s'.img ((src + j * w + i) % 2 ^ 32)) →
    ∃ t t', exec (.blit x y w h src) s = .next t ∧ exec (.blit x y w h src) s' = .next t' ∧ t.fb = t'.fb

/-! ## The line -/

/-- 42_line.md R120: LINE sets exactly the in-bounds pixels of `LinePixels` and changes nothing else. -/
def Obligations.LinePlotsItsPixels : Prop :=
  ∀ (s : State) (x0 y0 x1 y1 : Int), s.MemoriesOk → ∃ t, exec (.line x0 y0 x1 y1) s = .next t ∧ s.Drew t ∧
    (∀ a b, inBounds a b = true → t.pixel a b = (s.pixel a b || decide ((a, b) ∈ linePixels x0 y0 x1 y1))) ∧
    (∀ p c, byteInBounds p c = true → (∀ k : Nat, k < 8 → (c, 8 * p + (k : Int)) ∉ linePixels x0 y0 x1 y1) →
      t.fbByte p c = s.fbByte p c)

/-- 42_line.md R121: horizontal and vertical lines, in either direction, both ends inclusive. -/
def Obligations.HorizontalAndVerticalLines : Prop :=
  (∀ (s : State) (x0 x1 y : Int), s.MemoriesOk → ∃ t, exec (.line x0 y x1 y) s = .next t ∧ s.Drew t ∧
    ∀ a b, inBounds a b = true → t.pixel a b = (s.pixel a b || decide (b = y ∧ min x0 x1 ≤ a ∧ a ≤ max x0 x1))) ∧
  (∀ (s : State) (x y0 y1 : Int), s.MemoriesOk → ∃ t, exec (.line x y0 x y1) s = .next t ∧ s.Drew t ∧
    ∀ a b, inBounds a b = true → t.pixel a b = (s.pixel a b || decide (a = x ∧ min y0 y1 ≤ b ∧ b ≤ max y0 y1)))

/-- The closed form of the recurrence of 42_line.md R122: a slanted line run toward +x holds, for every value of its major
coordinate, the pixel whose minor coordinate is the ideal one rounded, a tie away from the first end. -/
def Obligations.SlantedLineClosedForm : Prop :=
  ∀ x0 y0 x1 y1 : Int, x0 < x1 → y0 ≠ y1 → ∀ a b : Int,
    let dx := x1 - x0
    let dy := max (y1 - y0) (y0 - y1)
    ((a, b) ∈ linePixels x0 y0 x1 y1 ↔
      if dy ≤ dx then
        x0 ≤ a ∧ a ≤ x1 ∧
          b = if y0 < y1 then y0 + (2 * (a - x0) * dy + dx) / (2 * dx) else y0 - (2 * (a - x0) * dy + dx) / (2 * dx)
      else
        min y0 y1 ≤ b ∧ b ≤ max y0 y1 ∧ a = x0 + (2 * (max (b - y0) (y0 - b)) * dx + dy) / (2 * dy))

/-- 42_line.md R123 (a): the number of emitted points, and that both ends are among them. -/
def Obligations.LineCountAndEnds : Prop :=
  ∀ x0 y0 x1 y1 : Int,
    ((linePixels x0 y0 x1 y1).length : Int) = max (max (x1 - x0) (x0 - x1)) (max (y1 - y0) (y0 - y1)) + 1 ∧
    (x0, y0) ∈ linePixels x0 y0 x1 y1 ∧ (x1, y1) ∈ linePixels x0 y0 x1 y1

/-- 42_line.md R123 (b): consecutive points differ by exactly 1 in the major coordinate and at most 1 in the minor. -/
def Obligations.LineIsConnected : Prop :=
  ∀ x0 y0 x1 y1 : Int, List.IsChain (fun q q' : Point =>
    if max (y1 - y0) (y0 - y1) ≤ max (x1 - x0) (x0 - x1)
      then (q'.1 = q.1 + 1 ∨ q'.1 = q.1 - 1) ∧ q.2 - 1 ≤ q'.2 ∧ q'.2 ≤ q.2 + 1
      else (q'.2 = q.2 + 1 ∨ q'.2 = q.2 - 1) ∧ q.1 - 1 ≤ q'.1 ∧ q'.1 ≤ q.1 + 1) (linePixels x0 y0 x1 y1)

/-- 42_line.md R123 (c): the same pixels with the ends exchanged. -/
def Obligations.LineEndsCanBeExchanged : Prop :=
  ∀ (s : State) (x0 y0 x1 y1 : Int), exec (.line x0 y0 x1 y1) s = exec (.line x1 y1 x0 y0) s

/-- 20_memory.md R52: the decision variable and the running point of LINE stay in the datapath's ranges. -/
def Obligations.LineDecisionVariableInRange : Prop :=
  ∀ x0 y0 x1 y1 : Int, (Instr.line x0 y0 x1 y1).wf = true → x0 ≠ x1 → y0 ≠ y1 →
    ∀ q ∈ lineRun (lineNormalize x0 y0 x1 y1), -131070 ≤ q.d ∧ q.d ≤ 131070 ∧
      -32768 ≤ q.x ∧ q.x ≤ 32768 ∧ -32768 ≤ q.y ∧ q.y ≤ 32768

/-! ## The circle -/

/-- 43_circle.md R131: the octant sequence, step by step, from its start to the first point with x ≥ y. -/
def Obligations.OctantSequence : Prop :=
  ∀ r : Nat, (oct r).head? = some ⟨0, r, 1 - r⟩ ∧ (∃ q, (oct r).getLast? = some q ∧ q.y ≤ q.x) ∧
    List.IsChain (fun q q' : OctPoint => q.x < q.y ∧ q'.x = q.x + 1 ∧
      (q.d < 0 → q'.y = q.y ∧ q'.d = q.d + 2 * q'.x + 1) ∧
      (0 ≤ q.d → q'.y = q.y - 1 ∧ q'.d = q.d + 2 * (q'.x - q'.y) + 1)) (oct r)

/-- 43_circle.md R131: the decision value is (x + 1)² + (y - ½)² - R² - ¼ at each point, and the points stay in the octant's
box. -/
def Obligations.OctantDecisionIdentity : Prop :=
  ∀ (r : Nat), ∀ q ∈ oct r, q.d = (q.x + 1) ^ 2 + (q.y ^ 2 - q.y) - (r : Int) ^ 2 ∧
    0 ≤ q.x ∧ q.x ≤ r ∧ 0 ≤ q.y ∧ q.y ≤ r ∧ q.x ≤ q.y + 1

/-- 43_circle.md R130: CIRC sets exactly the in-bounds points of Plot8 over the octant sequence. -/
def Obligations.CircPlotsTheOctants : Prop :=
  ∀ (s : State) (x y : Int) (r : Nat), s.MemoriesOk → ∃ t, exec (.circ x y r) s = .next t ∧ s.Drew t ∧
    (∀ a b, inBounds a b = true → (t.pixel a b = true ↔ s.pixel a b = true ∨ ∃ q ∈ oct r,
      ((a = x + q.x ∨ a = x - q.x) ∧ (b = y + q.y ∨ b = y - q.y)) ∨
      ((a = x + q.y ∨ a = x - q.y) ∧ (b = y + q.x ∨ b = y - q.x)))) ∧
    (∀ p c, byteInBounds p c = true → (∀ q ∈ oct r, ∀ k : Nat, k < 8 → (c, 8 * p + (k : Int)) ∉ mirror8 x y q.x q.y) →
      t.fbByte p c = s.fbByte p c)

/-- 43_circle.md R132: CIRCF sets exactly the in-bounds points of Plot8 and of the two span pairs. -/
def Obligations.CircfPlotsOctantsAndSpans : Prop :=
  ∀ (s : State) (x y : Int) (r : Nat), s.MemoriesOk → ∃ t, exec (.circf x y r) s = .next t ∧ s.Drew t ∧
    (∀ a b, inBounds a b = true → (t.pixel a b = true ↔ s.pixel a b = true ∨ ∃ q ∈ oct r,
      ((a = x + q.x ∨ a = x - q.x) ∧ (b = y + q.y ∨ b = y - q.y)) ∨
      ((a = x + q.y ∨ a = x - q.y) ∧ (b = y + q.x ∨ b = y - q.x)) ∨
      (x - q.x ≤ a ∧ a ≤ x + q.x ∧ (b = y + q.y ∨ b = y - q.y)) ∨
      (x - q.y ≤ a ∧ a ≤ x + q.y ∧ (b = y + q.x ∨ b = y - q.x)))) ∧
    (∀ p c, byteInBounds p c = true → (∀ k : Nat, k < 8 → ∀ q ∈ oct r,
        (c, 8 * p + (k : Int)) ∉ mirror8 x y q.x q.y ++ spanPoints (x - q.x) (x + q.x) (y + q.y) ++
          spanPoints (x - q.x) (x + q.x) (y - q.y) ++ spanPoints (x - q.y) (x + q.y) (y + q.x) ++
          spanPoints (x - q.y) (x + q.y) (y - q.x)) →
      t.fbByte p c = s.fbByte p c)

/-- 43_circle.md R133 (c), (d): the outline is symmetric in x, in y and under transposition about the centre, reaches exactly
R in the four directions and no further. -/
def Obligations.CircleIsSymmetric : Prop :=
  ∀ (x y : Int) (r : Nat) (a b : Int),
    let on := fun a b : Int => ∃ q ∈ oct r, (a, b) ∈ mirror8 x y q.x q.y
    (on a b ↔ on (2 * x - a) b) ∧ (on a b ↔ on a (2 * y - b)) ∧ (on a b ↔ on (x + (b - y)) (y + (a - x))) ∧
    on x (y + r) ∧ on x (y - r) ∧ on (x + r) y ∧ on (x - r) y ∧
    (on a b → x - r ≤ a ∧ a ≤ x + r ∧ y - r ≤ b ∧ b ≤ y + r)

/-- 43_circle.md R134: radius 0 is the centre pixel; radius 1 is four pixels, filled five. -/
def Obligations.SmallCircles : Prop :=
  ∀ (s : State) (x y : Int), s.MemoriesOk →
    (∀ i ∈ [Instr.circ x y 0, Instr.circf x y 0], ∃ t, exec i s = .next t ∧
      ∀ a b, inBounds a b = true → t.pixel a b = (s.pixel a b || decide (a = x ∧ b = y))) ∧
    (∃ t, exec (.circ x y 1) s = .next t ∧ ∀ a b, inBounds a b = true → t.pixel a b = (s.pixel a b ||
      decide ((a = x ∧ (b = y + 1 ∨ b = y - 1)) ∨ (b = y ∧ (a = x + 1 ∨ a = x - 1))))) ∧
    (∃ t, exec (.circf x y 1) s = .next t ∧ ∀ a b, inBounds a b = true → t.pixel a b = (s.pixel a b ||
      decide ((a = x ∧ (b = y + 1 ∨ b = y - 1)) ∨ (b = y ∧ (a = x + 1 ∨ a = x - 1)) ∨ (a = x ∧ b = y))))

/-! ## The ellipse -/

/-- 44_ellipse.md R141: the integer forms are four times the decision function at the midpoints. -/
def Obligations.EllipseDecisionForms : Prop :=
  ∀ a b x y : Int,
    let F := fun u v : ℚ => (b * b : ℚ) * u * u + (a * a : ℚ) * v * v - (a * a : ℚ) * (b * b)
    (ellD1 a b x y : ℚ) = 4 * F (x + 1) (y - 1 / 2) ∧ (ellD2 a b x y : ℚ) = 4 * F (x + 1 / 2) (y - 1)

/-- 44_ellipse.md R140: the walk from (0, B) to y = 0, every step decided by the region test and the decision value at the
point before it. -/
def Obligations.EllipseWalk : Prop :=
  ∀ a b : Nat, (ellWalk a b).head? = some (0, (b : Int)) ∧ (∃ x : Int, (ellWalk a b).getLast? = some (x, 0) ∧ 0 ≤ x) ∧
    List.IsChain (fun q q' : Point =>
      if 2 * ((b : Int) * b) * (q.1 + 1) < ((a : Int) * a) * (2 * q.2 - 1)
        then (ellD1 a b q.1 q.2 < 0 → q' = (q.1 + 1, q.2)) ∧ (0 ≤ ellD1 a b q.1 q.2 → q' = (q.1 + 1, q.2 - 1))
        else 0 < q.2 ∧ (ellD2 a b q.1 q.2 < 0 → q' = (q.1 + 1, q.2 - 1)) ∧
          (0 ≤ ellD2 a b q.1 q.2 → q' = (q.1, q.2 - 1))) (ellWalk a b)

/-- 44_ellipse.md R140: ELPS sets exactly the in-bounds points of Plot4 over the walk. -/
def Obligations.ElpsPlotsTheWalk : Prop :=
  ∀ (s : State) (x y : Int) (a b : Nat), s.MemoriesOk → ∃ t, exec (.elps x y a b) s = .next t ∧ s.Drew t ∧
    (∀ u v, inBounds u v = true → (t.pixel u v = true ↔ s.pixel u v = true ∨ ∃ q ∈ ellWalk a b,
      (u = x + q.1 ∨ u = x - q.1) ∧ (v = y + q.2 ∨ v = y - q.2))) ∧
    (∀ p c, byteInBounds p c = true → (∀ q ∈ ellWalk a b, ∀ k : Nat, k < 8 → (c, 8 * p + (k : Int)) ∉ mirror4 x y q.1 q.2) →
      t.fbByte p c = s.fbByte p c)

/-- 44_ellipse.md R143: ELPSF sets exactly the in-bounds points of Plot4 and of the two spans of every step. -/
def Obligations.ElpsfPlotsWalkAndSpans : Prop :=
  ∀ (s : State) (x y : Int) (a b : Nat), s.MemoriesOk → ∃ t, exec (.elpsf x y a b) s = .next t ∧ s.Drew t ∧
    (∀ u v, inBounds u v = true → (t.pixel u v = true ↔ s.pixel u v = true ∨ ∃ q ∈ ellWalk a b,
      ((u = x + q.1 ∨ u = x - q.1) ∧ (v = y + q.2 ∨ v = y - q.2)) ∨
      (x - q.1 ≤ u ∧ u ≤ x + q.1 ∧ (v = y + q.2 ∨ v = y - q.2)))) ∧
    (∀ p c, byteInBounds p c = true → (∀ k : Nat, k < 8 → ∀ q ∈ ellWalk a b,
        (c, 8 * p + (k : Int)) ∉ mirror4 x y q.1 q.2 ++ spanPoints (x - q.1) (x + q.1) (y + q.2) ++
          spanPoints (x - q.1) (x + q.1) (y - q.2)) →
      t.fbByte p c = s.fbByte p c)

/-- 44_ellipse.md R144: a zero semi-axis. B = 0 is the centre pixel; A = 0 is a vertical run; outline and filled alike. -/
def Obligations.DegenerateEllipses : Prop :=
  ∀ (s : State) (x y : Int) (n : Nat), s.MemoriesOk →
    (∀ i ∈ [Instr.elps x y n 0, Instr.elpsf x y n 0], ∃ t, exec i s = .next t ∧ s.Drew t ∧
      ∀ u v, inBounds u v = true → t.pixel u v = (s.pixel u v || decide (u = x ∧ v = y))) ∧
    (∀ i ∈ [Instr.elps x y 0 n, Instr.elpsf x y 0 n], ∃ t, exec i s = .next t ∧ s.Drew t ∧
      ∀ u v, inBounds u v = true → t.pixel u v = (s.pixel u v || decide (u = x ∧ y - n ≤ v ∧ v ≤ y + n)))

/-- 43_circle.md R133 (a), 44_ellipse.md R147 (a): the filled figure sets every pixel its outline sets. -/
def Obligations.OutlineInsideFilled : Prop :=
  ∀ (s : State) (x y : Int) (m n : Nat), s.MemoriesOk →
    ∀ e ∈ [(Instr.circ x y m, Instr.circf x y m), (Instr.elps x y m n, Instr.elpsf x y m n)],
      ∃ t u, exec e.1 s = .next t ∧ exec e.2 s = .next u ∧ ∀ a b, t.pixel a b = true → u.pixel a b = true

/-- 43_circle.md R133 (e), 44_ellipse.md R147 (g), 42_line.md R120: the rasterizers and SETP never clear a pixel. -/
def Obligations.RasterizersOnlySetPixels : Prop :=
  ∀ (s : State) (x y x1 y1 : Int) (m n : Nat), s.MemoriesOk →
    ∀ i ∈ [Instr.setp x y, .line x y x1 y1, .circ x y m, .circf x y m, .elps x y m n, .elpsf x y m n],
      ∃ t, exec i s = .next t ∧ ∀ a b, s.pixel a b = true → t.pixel a b = true

/-! ## The host's pseudo-instructions -/

/-- 48_boundary_collaborators.md R152: RECTF sets exactly the in-bounds pixels of the rectangle. -/
def Obligations.RectfSetsTheRectangle : Prop :=
  ∀ (s : State) (x y : Int) (w h : Nat), s.MemoriesOk → (Pseudo.rectf x y w h).operandsOk = true →
    ∃ cs t, (Pseudo.rectf x y w h).expand = some cs ∧ execAll cs s = .next t ∧
      (∀ a b, inBounds a b = true → t.pixel a b =
        (s.pixel a b || decide (x ≤ a ∧ a ≤ x + w - 1 ∧ y ≤ b ∧ b ≤ y + h - 1))) ∧
      (w = 0 ∨ h = 0 → t.fb = s.fb)

/-- 48_boundary_collaborators.md R151: RECT sets exactly the in-bounds pixels of the rectangle's first and last row and
first and last column. -/
def Obligations.RectSetsTheEdges : Prop :=
  ∀ (s : State) (x y : Int) (w h : Nat), s.MemoriesOk → (Pseudo.rect x y w h).accepted = true →
    ∃ cs t, (Pseudo.rect x y w h).expand = some cs ∧ execAll cs s = .next t ∧
      (w = 0 ∨ h = 0 → cs = []) ∧
      ∀ a b, inBounds a b = true → t.pixel a b = (s.pixel a b ||
        decide ((x ≤ a ∧ a ≤ x + w - 1 ∧ y ≤ b ∧ b ≤ y + h - 1) ∧
          (b = y ∨ b = y + h - 1 ∨ a = x ∨ a = x + w - 1)))

/-- 48_boundary_collaborators.md R156: SYNC reads the 1024 bytes in page-major order and changes no byte. -/
def Obligations.SyncReadsEveryByte : Prop :=
  ∀ s : State, ∃ cs t, Pseudo.sync.expand = some cs ∧ execAll cs s = .next t ∧ t.fb = s.fb ∧
    t.responses = s.responses ++
      (List.range 1024).map (fun n : Nat => ⟨.ok, s.fbByte ((n / 128 : Nat) : Int) ((n % 128 : Nat) : Int)⟩)

/-- 48_boundary_collaborators.md R157: SYNCA reads exactly the on-panel bytes that the rectangle touches in some row. -/
def Obligations.SyncaReadsTheTouchedBytes : Prop :=
  ∀ (x y : Int) (w h : Nat), (Pseudo.synca x y w h).accepted = true →
    ∃ cs, (Pseudo.synca x y w h).expand = some cs ∧ cs.Nodup ∧
      ∀ i, i ∈ cs ↔ ∃ p c : Nat, i = .rdb p c ∧ p ≤ 7 ∧ c ≤ 127 ∧ x ≤ c ∧ (c : Int) ≤ x + w - 1 ∧
        ∃ b : Int, y ≤ b ∧ b ≤ y + h - 1 ∧ pageOf b = p
end

