-- ==== Sys2Proof/Laws/Memory.lean ====
section
/-! SUPPORT. The laws of a memory: reading after writing, tabulating, the canonical form and that every operation keeps it,
and that two memories in canonical form with the same bytes are equal. -/

namespace Sys2Proof.Machine

theorem Memory.wfFrom_cons {bound a k : Nat} {b : Byte} {m : Memory} :
    Memory.wfFrom bound a ((k, b) :: m) = true ↔
      a ≤ k ∧ k < bound ∧ b ≠ 0#8 ∧ Memory.wfFrom bound (k + 1) m = true := by
  simp [Memory.wfFrom, and_assoc]

theorem Memory.wfFrom_mono {bound a a' : Nat} {m : Memory} (h : Memory.wfFrom bound a m = true) (ha : a' ≤ a) :
    Memory.wfFrom bound a' m = true := by
  cases m with
  | nil => rfl
  | cons kb m =>
    obtain ⟨k, b⟩ := kb
    rw [Memory.wfFrom_cons] at *
    exact ⟨by omega, h.2⟩

/-- Below its first address a memory reads as 0x00. -/
theorem Memory.read_below {bound a k : Nat} {m : Memory} (h : Memory.wfFrom bound a m = true) (hk : k < a) :
    Memory.read m k = 0#8 := by
  cases m with
  | nil => rfl
  | cons kb m =>
    obtain ⟨k', b⟩ := kb
    rw [Memory.wfFrom_cons] at h
    simp only [Memory.read]
    rw [if_neg (by omega), if_pos (by omega)]

/-- At and above its bound a memory reads as 0x00. -/
theorem Memory.read_above {bound a k : Nat} {m : Memory} (h : Memory.wfFrom bound a m = true) (hk : bound ≤ k) :
    Memory.read m k = 0#8 := by
  induction m generalizing a with
  | nil => rfl
  | cons kb m ih =>
    obtain ⟨k', b⟩ := kb
    rw [Memory.wfFrom_cons] at h
    simp only [Memory.read]
    rw [if_neg (by omega), if_neg (by omega)]
    exact ih h.2.2.2

/-- Reading after a write: the byte written at its address, every other byte as before. -/
theorem Memory.read_write {bound a : Nat} {m : Memory} (h : Memory.wfFrom bound a m = true) (k k' : Nat) (v : Byte) :
    Memory.read (Memory.write m k v) k' = if k' = k then v else Memory.read m k' := by
  induction m generalizing a with
  | nil =>
    by_cases hv : v = 0#8 <;> simp [Memory.write, Memory.read, hv]
  | cons kb m ih =>
    obtain ⟨j, b⟩ := kb
    rw [Memory.wfFrom_cons] at h
    have hread := fun {i : Nat} (hi : i < j + 1) => Memory.read_below h.2.2.2 hi
    simp only [Memory.write]
    by_cases hkj : k < j
    · rw [if_pos hkj]
      by_cases hv : v = 0#8
      · rw [if_pos hv]
        by_cases hk : k' = k
        · rw [hk, hv, if_pos rfl]; simp only [Memory.read]; rw [if_neg (by omega), if_pos hkj]
        · rw [if_neg hk]
      · rw [if_neg hv]
        by_cases hk : k' = k
        · simp [Memory.read, hk]
        · rw [if_neg hk]
          by_cases hlt : k' < k
          · simp only [Memory.read]; rw [if_neg hk, if_pos hlt, if_neg (by omega), if_pos (by omega)]
          · conv_lhs => unfold Memory.read
            rw [if_neg hk, if_neg hlt]
    · rw [if_neg hkj]
      by_cases hkj' : k = j
      · subst hkj'
        rw [if_pos rfl]
        by_cases hv : v = 0#8
        · rw [if_pos hv]
          by_cases hk : k' = k
          · rw [if_pos hk, hk, hv]; exact hread (by omega)
          · rw [if_neg hk]
            by_cases hlt : k' < k
            · rw [hread (by omega)]; simp only [Memory.read]; rw [if_neg hk, if_pos hlt]
            · conv_rhs => unfold Memory.read
              rw [if_neg hk, if_neg hlt]
        · rw [if_neg hv]
          by_cases hk : k' = k
          · simp [Memory.read, hk]
          · rw [if_neg hk]; simp only [Memory.read]; rw [if_neg hk, if_neg hk]
      · rw [if_neg hkj']
        simp only [Memory.read]
        rw [ih h.2.2.2]
        by_cases hk : k' = k
        · subst hk; rw [if_neg hkj', if_neg hkj, if_pos rfl, if_pos rfl]
        · rw [if_neg hk, if_neg hk]

/-- A write inside the bounds keeps the canonical form. -/
theorem Memory.wfFrom_write {bound a : Nat} {m : Memory} (h : Memory.wfFrom bound a m = true) {k : Nat} (ha : a ≤ k)
    (hk : k < bound) (v : Byte) : Memory.wfFrom bound a (Memory.write m k v) = true := by
  induction m generalizing a with
  | nil =>
    by_cases hv : v = 0#8
    · simp [Memory.write, hv, Memory.wfFrom]
    · simp [Memory.write, hv, Memory.wfFrom, ha, hk]
  | cons jb m ih =>
    obtain ⟨j, b⟩ := jb
    rw [Memory.wfFrom_cons] at h
    simp only [Memory.write]
    by_cases hkj : k < j
    · rw [if_pos hkj]
      by_cases hv : v = 0#8
      · rw [if_pos hv, Memory.wfFrom_cons]; exact h
      · rw [if_neg hv, Memory.wfFrom_cons, Memory.wfFrom_cons]
        exact ⟨ha, hk, hv, by omega, h.2⟩
    · rw [if_neg hkj]
      by_cases hkj' : k = j
      · rw [if_pos hkj']
        by_cases hv : v = 0#8
        · rw [if_pos hv]; exact Memory.wfFrom_mono h.2.2.2 (by omega)
        · rw [if_neg hv, Memory.wfFrom_cons]; exact ⟨ha, hk, hv, hkj' ▸ h.2.2.2⟩
      · rw [if_neg hkj', Memory.wfFrom_cons]
        exact ⟨h.1, h.2.1, h.2.2.1, ih h.2.2.2 (by omega)⟩

/-- A tabulated memory is in canonical form. -/
theorem Memory.wfFrom_tabulate (f : Nat → Byte) {bound : Nat} (n a : Nat) (h : a + n ≤ bound) :
    Memory.wfFrom bound a (Memory.tabulate f n a) = true := by
  induction n generalizing a with
  | zero => rfl
  | succ n ih =>
    simp only [Memory.tabulate]
    by_cases hf : f a = 0#8
    · rw [if_pos hf]; exact Memory.wfFrom_mono (ih (a + 1) (by omega)) (by omega)
    · rw [if_neg hf, Memory.wfFrom_cons]; exact ⟨le_rfl, by omega, hf, ih (a + 1) (by omega)⟩

/-- A tabulated memory reads as its function inside its range, and as 0x00 outside. -/
theorem Memory.read_tabulate (f : Nat → Byte) (n a k : Nat) :
    Memory.read (Memory.tabulate f n a) k = if a ≤ k ∧ k < a + n then f k else 0#8 := by
  induction n generalizing a with
  | zero => simp [Memory.tabulate, Memory.read, show ¬(a ≤ k ∧ k < a) by omega]
  | succ n ih =>
    simp only [Memory.tabulate]
    by_cases hf : f a = 0#8
    · rw [if_pos hf, ih]
      by_cases hk : k = a
      · subst hk; simp [hf]
      · have : (a + 1 ≤ k ∧ k < a + 1 + n) ↔ (a ≤ k ∧ k < a + (n + 1)) := by omega
        simp only [this]
    · rw [if_neg hf]
      simp only [Memory.read]
      rw [ih]
      by_cases hk : k = a
      · subst hk; simp
      · rw [if_neg hk]
        by_cases hlt : k < a
        · rw [if_pos hlt, if_neg (by omega)]
        · rw [if_neg hlt]
          have : (a + 1 ≤ k ∧ k < a + 1 + n) ↔ (a ≤ k ∧ k < a + (n + 1)) := by omega
          simp only [this]

/-- Two memories in canonical form with the same bytes are the same list. -/
theorem Memory.ext_of_wfFrom {bound a : Nat} {m m' : Memory} (h : Memory.wfFrom bound a m = true)
    (h' : Memory.wfFrom bound a m' = true) (hr : ∀ k, Memory.read m k = Memory.read m' k) : m = m' := by
  induction m generalizing a m' with
  | nil =>
    cases m' with
    | nil => rfl
    | cons jb m' =>
      obtain ⟨j, b⟩ := jb
      rw [Memory.wfFrom_cons] at h'
      exact absurd (by simpa [Memory.read] using (hr j).symm) h'.2.2.1
  | cons jb m ih =>
    obtain ⟨j, b⟩ := jb
    rw [Memory.wfFrom_cons] at h
    cases m' with
    | nil => exact absurd (by simpa [Memory.read] using hr j) h.2.2.1
    | cons kc m' =>
      obtain ⟨k, c⟩ := kc
      rw [Memory.wfFrom_cons] at h'
      have hjk : j = k := by
        rcases Nat.lt_trichotomy j k with hlt | heq | hlt
        · have := hr j
          simp only [Memory.read, if_true] at this
          rw [if_neg (by omega), if_pos hlt] at this
          exact absurd this h.2.2.1
        · exact heq
        · have := hr k
          simp only [Memory.read] at this
          rw [if_neg (by omega), if_pos hlt, if_pos trivial] at this
          exact absurd this.symm h'.2.2.1
      subst hjk
      have hbc : b = c := by simpa [Memory.read] using hr j
      subst hbc
      rw [ih h.2.2.2 h'.2.2.2 (fun k => ?_)]
      by_cases hk : k < j + 1
      · rw [Memory.read_below h.2.2.2 hk, Memory.read_below h'.2.2.2 hk]
      · have := hr k
        simp only [Memory.read] at this
        rwa [if_neg (by omega), if_neg (by omega), if_neg (by omega), if_neg (by omega)] at this

theorem Memory.wf_write {bound : Nat} {m : Memory} (h : Memory.wf bound m = true) {k : Nat} (hk : k < bound) (v : Byte) :
    Memory.wf bound (Memory.write m k v) = true :=
  Memory.wfFrom_write h (Nat.zero_le k) hk v

theorem Memory.wf_tabulate (f : Nat → Byte) {bound n : Nat} (h : n ≤ bound) :
    Memory.wf bound (Memory.tabulate f n 0) = true :=
  Memory.wfFrom_tabulate f n 0 (by omega)

theorem Memory.wf_nil (bound : Nat) : Memory.wf bound [] = true := rfl

end Sys2Proof.Machine
end

