-- ==== Sys2Proof/Laws/Framebuffer.lean ====
section
/-! SUPPORT. The framebuffer primitives, each said once: the byte form, the pixel form, that it keeps the canonical form;
the point lists; and that pixels determine bytes and bytes the framebuffer. -/

namespace Sys2Proof.Machine

/-! ## Address decode -/

theorem inBounds_iff {x y : Int} : inBounds x y = true ↔ 0 ≤ x ∧ x ≤ 127 ∧ 0 ≤ y ∧ y ≤ 63 := by simp [inBounds]

theorem byteInBounds_iff {p c : Int} : byteInBounds p c = true ↔ 0 ≤ p ∧ p ≤ 7 ∧ 0 ≤ c ∧ c ≤ 127 := by
  simp [byteInBounds]

theorem bitOf_lt (y : Int) : bitOf y < 8 := by unfold bitOf; omega

/-- The byte of an in-bounds pixel is a framebuffer byte. -/
theorem byteInBounds_of_inBounds {x y : Int} (h : inBounds x y = true) : byteInBounds (pageOf y) x = true := by
  rw [inBounds_iff] at h
  rw [byteInBounds_iff]
  unfold pageOf
  omega

theorem cellOf_lt {p c : Int} (h : byteInBounds p c = true) : cellOf p c < Config.fbSize := by
  rw [byteInBounds_iff] at h
  unfold cellOf Config.fbSize
  omega

theorem cellOf_inj {p c p' c' : Int} (h : byteInBounds p c = true) (h' : byteInBounds p' c' = true) :
    cellOf p c = cellOf p' c' ↔ p = p' ∧ c = c' := by
  rw [byteInBounds_iff] at h h'
  unfold cellOf
  omega

/-- Page and bit determine the row. -/
theorem row_eq_iff {y y' : Int} : (pageOf y = pageOf y' ∧ bitOf y = bitOf y') ↔ y = y' := by
  unfold pageOf bitOf
  omega

theorem maskOf_bit (y : Int) {k : Nat} (hk : k < 8) : (maskOf y).getLsbD k = decide (k = bitOf y) := by
  have h := bitOf_lt y
  unfold maskOf
  generalize bitOf y = n at h
  interval_cases n <;> interval_cases k <;> rfl

/-! ## Bytes -/

theorem fbRead_fbWrite {fb : Memory} (hw : Memory.wf Config.fbSize fb = true) {p c p' c' : Int}
    (h : byteInBounds p c = true) (h' : byteInBounds p' c' = true) (v : Byte) :
    fbRead (fbWrite fb p c v) p' c' = if p' = p ∧ c' = c then v else fbRead fb p' c' := by
  simp only [fbRead, fbWrite, Memory.read_write hw, cellOf_inj h' h]

theorem wf_fbWrite {fb : Memory} (hw : Memory.wf Config.fbSize fb = true) {p c : Int} (h : byteInBounds p c = true)
    (v : Byte) : Memory.wf Config.fbSize (fbWrite fb p c v) = true :=
  Memory.wf_write hw (cellOf_lt h) v

/-- The bit of an in-bounds pixel, as `FB[y div 8][x][y mod 8]` (10_state.md R23). -/
theorem testPixel_of_inBounds {fb : Memory} {x y : Int} (h : inBounds x y = true) :
    testPixel fb x y = (fbRead fb (pageOf y) x).getLsbD (bitOf y) := if_pos h

theorem testPixel_out {fb : Memory} {x y : Int} (h : inBounds x y = false) : testPixel fb x y = false := by
  simp [testPixel, h]

/-- Bit `k` of `FB[p][c]` is the pixel (c, 8 p + k). -/
theorem fbRead_bit {fb : Memory} {p c : Int} (h : byteInBounds p c = true) {k : Nat} (hk : k < 8) :
    (fbRead fb p c).getLsbD k = testPixel fb c (8 * p + k) := by
  rw [byteInBounds_iff] at h
  have hp : pageOf (8 * p + k) = p := by unfold pageOf; omega
  have hb : bitOf (8 * p + k) = k := by unfold bitOf; omega
  rw [testPixel_of_inBounds (by rw [inBounds_iff]; omega), hp, hb]

/-- Two framebuffers with the same pixels have the same bytes. -/
theorem fbRead_eq_of_pixels {fb fb' : Memory} (hp : ∀ x y, inBounds x y = true → testPixel fb x y = testPixel fb' x y)
    {p c : Int} (h : byteInBounds p c = true) : fbRead fb p c = fbRead fb' p c := by
  apply BitVec.eq_of_getLsbD_eq
  intro k hk
  rw [fbRead_bit h hk, fbRead_bit h hk]
  rw [byteInBounds_iff] at h
  exact hp _ _ (by rw [inBounds_iff]; omega)

/-- Two canonical framebuffers with the same bytes are equal. -/
theorem fb_eq_of_bytes {fb fb' : Memory} (hw : Memory.wf Config.fbSize fb = true)
    (hw' : Memory.wf Config.fbSize fb' = true)
    (hb : ∀ p c, byteInBounds p c = true → fbRead fb p c = fbRead fb' p c) : fb = fb' := by
  refine Memory.ext_of_wfFrom hw hw' (fun k => ?_)
  by_cases hk : k < Config.fbSize
  · have hk' : k < 1024 := hk
    have h : byteInBounds ((k / 128 : Nat) : Int) ((k % 128 : Nat) : Int) = true := by
      rw [byteInBounds_iff]; omega
    have := hb _ _ h
    have hc : cellOf ((k / 128 : Nat) : Int) ((k % 128 : Nat) : Int) = k := by unfold cellOf; omega
    rwa [fbRead, fbRead, hc] at this
  · rw [Memory.read_above hw (by omega), Memory.read_above hw' (by omega)]

/-- Two canonical framebuffers with the same pixels are equal. -/
theorem fb_eq_of_pixels {fb fb' : Memory} (hw : Memory.wf Config.fbSize fb = true)
    (hw' : Memory.wf Config.fbSize fb' = true)
    (hp : ∀ x y, inBounds x y = true → testPixel fb x y = testPixel fb' x y) : fb = fb' :=
  fb_eq_of_bytes hw hw' (fun _ _ h => fbRead_eq_of_pixels hp h)

/-! ## The pixel form of each primitive -/

/-- A pixel after a framebuffer byte is written: the bit of the new byte if the pixel lies in it, else as before. -/
theorem testPixel_fbWrite {fb : Memory} (hw : Memory.wf Config.fbSize fb = true) {p c : Int}
    (h : byteInBounds p c = true) (v : Byte) {x y : Int} (hxy : inBounds x y = true) :
    testPixel (fbWrite fb p c v) x y =
      if pageOf y = p ∧ x = c then v.getLsbD (bitOf y) else testPixel fb x y := by
  rw [testPixel_of_inBounds hxy, fbRead_fbWrite hw h (byteInBounds_of_inBounds hxy), testPixel_of_inBounds hxy]
  split <;> rfl

theorem wf_plot {fb : Memory} (hw : Memory.wf Config.fbSize fb = true) (x y : Int) :
    Memory.wf Config.fbSize (plot fb x y) = true := by
  unfold plot; split
  · exact wf_fbWrite hw (byteInBounds_of_inBounds ‹_›) _
  · exact hw

theorem wf_unplot {fb : Memory} (hw : Memory.wf Config.fbSize fb = true) (x y : Int) :
    Memory.wf Config.fbSize (unplot fb x y) = true := by
  unfold unplot; split
  · exact wf_fbWrite hw (byteInBounds_of_inBounds ‹_›) _
  · exact hw

theorem wf_toggle {fb : Memory} (hw : Memory.wf Config.fbSize fb = true) (x y : Int) :
    Memory.wf Config.fbSize (toggle fb x y) = true := by
  unfold toggle; split
  · exact wf_fbWrite hw (byteInBounds_of_inBounds ‹_›) _
  · exact hw

theorem wf_orByte {fb : Memory} (hw : Memory.wf Config.fbSize fb = true) (p c : Int) (v : Byte) :
    Memory.wf Config.fbSize (orByte fb p c v) = true := by
  unfold orByte; split
  · exact wf_fbWrite hw ‹_› _
  · exact hw

/-- The shape the three one-pixel writes share: the byte of pixel (x, y) is replaced by one that differs from it in
bit `bitOf y` only. -/
theorem testPixel_oneBit {fb : Memory} (hw : Memory.wf Config.fbSize fb = true) {x y : Int} (h : inBounds x y = true)
    (v : Byte) (g : Bool → Bool)
    (hv : ∀ k < 8, v.getLsbD k =
      if k = bitOf y then g ((fbRead fb (pageOf y) x).getLsbD k) else (fbRead fb (pageOf y) x).getLsbD k)
    {a b : Int} (hab : inBounds a b = true) :
    testPixel (fbWrite fb (pageOf y) x v) a b = if a = x ∧ b = y then g (testPixel fb a b) else testPixel fb a b := by
  rw [testPixel_fbWrite hw (byteInBounds_of_inBounds h) v hab]
  by_cases hp : pageOf b = pageOf y ∧ a = x
  · rw [if_pos hp, hv _ (bitOf_lt b), testPixel_of_inBounds hab, hp.1, hp.2]
    have : bitOf b = bitOf y ↔ b = y :=
      ⟨fun hb => row_eq_iff.mp ⟨hp.1, hb⟩, fun hb => by rw [hb]⟩
    simp only [this, true_and]
  · rw [if_neg hp, if_neg]
    rintro ⟨rfl, rfl⟩
    exact hp ⟨rfl, rfl⟩

/-- `Plot` at (x, y): that pixel is set, every other pixel is as before (20_memory.md R43). -/
theorem testPixel_plot {fb : Memory} (hw : Memory.wf Config.fbSize fb = true) (x y : Int) {a b : Int}
    (hab : inBounds a b = true) :
    testPixel (plot fb x y) a b = (testPixel fb a b || decide (a = x ∧ b = y)) := by
  unfold plot
  by_cases h : inBounds x y = true
  · rw [if_pos h, testPixel_oneBit hw h _ (fun _ => true) (fun k hk => ?_) hab]
    · by_cases he : a = x ∧ b = y <;> simp [he]
    · rw [BitVec.getLsbD_or, maskOf_bit y hk]
      by_cases hkb : k = bitOf y <;> simp [hkb]
  · rw [if_neg h]
    have : ¬(a = x ∧ b = y) := by rintro ⟨rfl, rfl⟩; exact h hab
    simp [this]

/-- `Unplot` at (x, y): that pixel is clear, every other pixel is as before (20_memory.md R44). -/
theorem testPixel_unplot {fb : Memory} (hw : Memory.wf Config.fbSize fb = true) (x y : Int) {a b : Int}
    (hab : inBounds a b = true) :
    testPixel (unplot fb x y) a b = (testPixel fb a b && !decide (a = x ∧ b = y)) := by
  unfold unplot
  by_cases h : inBounds x y = true
  · rw [if_pos h, testPixel_oneBit hw h _ (fun _ => false) (fun k hk => ?_) hab]
    · by_cases he : a = x ∧ b = y <;> simp [he]
    · rw [BitVec.getLsbD_and, BitVec.getLsbD_not, maskOf_bit y hk]
      by_cases hkb : k = bitOf y <;> simp [hkb, hk]
  · rw [if_neg h]
    have : ¬(a = x ∧ b = y) := by rintro ⟨rfl, rfl⟩; exact h hab
    simp [this]

/-- `Toggle` at (x, y): that pixel is inverted, every other pixel is as before (20_memory.md R45). -/
theorem testPixel_toggle {fb : Memory} (hw : Memory.wf Config.fbSize fb = true) (x y : Int) {a b : Int}
    (hab : inBounds a b = true) :
    testPixel (toggle fb x y) a b = (testPixel fb a b ^^ decide (a = x ∧ b = y)) := by
  unfold toggle
  by_cases h : inBounds x y = true
  · rw [if_pos h, testPixel_oneBit hw h _ (fun v => !v) (fun k hk => ?_) hab]
    · by_cases he : a = x ∧ b = y <;> simp [he]
    · rw [BitVec.getLsbD_xor, maskOf_bit y hk]
      by_cases hkb : k = bitOf y <;> simp [hkb]
  · rw [if_neg h]
    have : ¬(a = x ∧ b = y) := by rintro ⟨rfl, rfl⟩; exact h hab
    simp [this]

/-- `OrByte(p, c, v)`: the pixels of the byte get the bits of `v` ORed in, every other pixel is as before
(20_memory.md R47). -/
theorem testPixel_orByte {fb : Memory} (hw : Memory.wf Config.fbSize fb = true) (p c : Int) (v : Byte) {a b : Int}
    (hab : inBounds a b = true) :
    testPixel (orByte fb p c v) a b =
      (testPixel fb a b || (decide (pageOf b = p ∧ a = c) && v.getLsbD (bitOf b))) := by
  unfold orByte
  by_cases h : byteInBounds p c = true
  · rw [if_pos h, testPixel_fbWrite hw h _ hab]
    by_cases he : pageOf b = p ∧ a = c
    · rw [if_pos he, BitVec.getLsbD_or, testPixel_of_inBounds hab, he.1, he.2]; simp
    · rw [if_neg he]; simp [he]
  · rw [if_neg h]
    have : ¬(pageOf b = p ∧ a = c) := by
      rintro ⟨rfl, rfl⟩; exact h (byteInBounds_of_inBounds hab)
    simp [this]

/-! ## Point lists -/

theorem mem_intRange {a b v : Int} : v ∈ intRange a b ↔ a ≤ v ∧ v ≤ b := by
  simp only [intRange, List.mem_map, List.mem_range]
  constructor
  · rintro ⟨k, hk, rfl⟩; omega
  · intro h; exact ⟨(v - a).toNat, by omega, by omega⟩

theorem nodup_intRange (a b : Int) : (intRange a b).Nodup :=
  List.Nodup.map (fun _ _ h => by simpa using h) List.nodup_range

/-- The rectangle's pixels (40_pixel_ops.md R97). -/
theorem mem_rectPoints {x y a b : Int} {w h : Nat} :
    (a, b) ∈ rectPoints x y w h ↔ x ≤ a ∧ a ≤ x + w - 1 ∧ y ≤ b ∧ b ≤ y + h - 1 := by
  simp only [rectPoints, List.mem_flatMap, List.mem_map, mem_intRange, Prod.mk.injEq]
  constructor
  · rintro ⟨yy, hy, xx, hx, rfl, rfl⟩; omega
  · intro h; exact ⟨b, by omega, a, by omega, rfl, rfl⟩

/-- The rectangle's pixels are distinct (40_pixel_ops.md R93). -/
theorem nodup_rectPoints (x y : Int) (w h : Nat) : (rectPoints x y w h).Nodup := by
  rw [rectPoints, List.nodup_flatMap]
  refine ⟨fun yy _ => List.Nodup.map (fun _ _ h => by simpa using h) (nodup_intRange _ _), ?_⟩
  refine (nodup_intRange _ _).imp ?_
  intro yy yy' hne q hq hq'
  simp only [List.mem_map] at hq hq'
  obtain ⟨_, _, rfl⟩ := hq
  obtain ⟨_, _, hq'⟩ := hq'
  exact hne (by simpa using (congrArg Prod.snd hq').symm)

theorem mem_spanPoints {xl xr y a b : Int} : (a, b) ∈ spanPoints xl xr y ↔ xl ≤ a ∧ a ≤ xr ∧ b = y := by
  simp only [spanPoints, List.mem_map, mem_intRange, Prod.mk.injEq]
  constructor
  · rintro ⟨v, hv, rfl, rfl⟩; omega
  · rintro ⟨h1, h2, rfl⟩; exact ⟨a, ⟨h1, h2⟩, rfl, rfl⟩

theorem plotAll_cons (fb : Memory) (q : Point) (ps : List Point) :
    plotAll fb (q :: ps) = plotAll (plot fb q.1 q.2) ps := rfl

theorem plotAll_append (fb : Memory) (ps qs : List Point) : plotAll fb (ps ++ qs) = plotAll (plotAll fb ps) qs := by
  simp [plotAll, List.foldl_append]

theorem wf_plotAll {fb : Memory} (hw : Memory.wf Config.fbSize fb = true) (ps : List Point) :
    Memory.wf Config.fbSize (plotAll fb ps) = true := by
  induction ps generalizing fb with
  | nil => exact hw
  | cons q ps ih => exact ih (wf_plot hw _ _)

theorem wf_unplotAll {fb : Memory} (hw : Memory.wf Config.fbSize fb = true) (ps : List Point) :
    Memory.wf Config.fbSize (unplotAll fb ps) = true := by
  induction ps generalizing fb with
  | nil => exact hw
  | cons q ps ih => exact ih (wf_unplot hw _ _)

theorem wf_toggleAll {fb : Memory} (hw : Memory.wf Config.fbSize fb = true) (ps : List Point) :
    Memory.wf Config.fbSize (toggleAll fb ps) = true := by
  induction ps generalizing fb with
  | nil => exact hw
  | cons q ps ih => exact ih (wf_toggle hw _ _)

/-- Plotting a list sets exactly its in-bounds points. -/
theorem testPixel_plotAll {fb : Memory} (hw : Memory.wf Config.fbSize fb = true) (ps : List Point) {a b : Int}
    (hab : inBounds a b = true) : testPixel (plotAll fb ps) a b = (testPixel fb a b || decide ((a, b) ∈ ps)) := by
  induction ps generalizing fb with
  | nil => simp [plotAll]
  | cons q ps ih =>
    obtain ⟨qx, qy⟩ := q
    rw [plotAll_cons, ih (wf_plot hw _ _), testPixel_plot hw _ _ hab]
    simp [List.mem_cons, Bool.or_assoc]

/-- Clearing a list clears exactly its in-bounds points. -/
theorem testPixel_unplotAll {fb : Memory} (hw : Memory.wf Config.fbSize fb = true) (ps : List Point) {a b : Int}
    (hab : inBounds a b = true) :
    testPixel (unplotAll fb ps) a b = (testPixel fb a b && !decide ((a, b) ∈ ps)) := by
  induction ps generalizing fb with
  | nil => simp [unplotAll]
  | cons q ps ih =>
    obtain ⟨qx, qy⟩ := q
    show testPixel (unplotAll (unplot fb qx qy) ps) a b = _
    rw [ih (wf_unplot hw _ _), testPixel_unplot hw _ _ hab]
    simp [List.mem_cons, Bool.and_assoc]

/-- Toggling a list of distinct points inverts exactly its in-bounds points. -/
theorem testPixel_toggleAll {fb : Memory} (hw : Memory.wf Config.fbSize fb = true) {ps : List Point} (hn : ps.Nodup)
    {a b : Int} (hab : inBounds a b = true) :
    testPixel (toggleAll fb ps) a b = (testPixel fb a b ^^ decide ((a, b) ∈ ps)) := by
  induction ps generalizing fb with
  | nil => simp [toggleAll]
  | cons q ps ih =>
    obtain ⟨qx, qy⟩ := q
    rw [List.nodup_cons] at hn
    show testPixel (toggleAll (toggle fb qx qy) ps) a b = _
    rw [ih (wf_toggle hw _ _) hn.2, testPixel_toggle hw _ _ hab]
    by_cases he : a = qx ∧ b = qy
    · obtain ⟨rfl, rfl⟩ := he; simp [hn.1]
    · simp [he]

/-- Folding `plotAll` over point lists is plotting all their points. -/
theorem foldl_plotAll {α : Type} (f : α → List Point) (qs : List α) (fb : Memory) :
    qs.foldl (fun m q => plotAll m (f q)) fb = plotAll fb (qs.flatMap f) := by
  induction qs generalizing fb with
  | nil => rfl
  | cons q qs ih => rw [List.foldl_cons, ih, List.flatMap_cons, plotAll_append]

/-! ## The whole buffer -/

theorem wf_mapBytes (f : Byte → Byte) (fb : Memory) : Memory.wf Config.fbSize (mapBytes f fb) = true :=
  Memory.wf_tabulate _ le_rfl

theorem fbRead_mapBytes (f : Byte → Byte) (fb : Memory) {p c : Int} (h : byteInBounds p c = true) :
    fbRead (mapBytes f fb) p c = f (fbRead fb p c) := by
  have := cellOf_lt h
  simp only [fbRead, mapBytes, Memory.read_tabulate]
  rw [if_pos ⟨Nat.zero_le _, by omega⟩]

end Sys2Proof.Machine
end

