-- ==== Sys2Proof/Laws/Blit.lean ====
section
/-! SUPPORT. The blitter's merge in pixel form: a source byte sets the panel pixels its set bits name. -/

namespace Sys2Proof.Machine

theorem lowPart_bit (b : Byte) {s k : Nat} (hk : k < 8) :
    (lowPart b s).getLsbD k = (decide (s ≤ k) && b.getLsbD (k - s)) := by
  simp only [lowPart, BitVec.getLsbD_shiftLeft]
  by_cases h : s ≤ k <;> simp [h, hk]

theorem highPart_bit (b : Byte) (s k : Nat) : (highPart b s).getLsbD k = b.getLsbD (8 - s + k) := by
  simp only [highPart, BitVec.getLsbD_ushiftRight]

theorem wf_blitByte {fb : Memory} (hw : Memory.wf Config.fbSize fb = true) (img : Memory) (x y : Int) (w src j i : Nat) :
    Memory.wf Config.fbSize (blitByte img x y w src j i fb) = true := by
  unfold blitByte
  simp only []
  split
  · exact wf_orByte (wf_orByte hw _ _ _) _ _ _
  · exact hw

theorem wf_blitBand {fb : Memory} (hw : Memory.wf Config.fbSize fb = true) (img : Memory) (x y : Int) (w src j : Nat) :
    Memory.wf Config.fbSize (blitBand img x y w src j fb) = true := by
  unfold blitBand
  induction List.range w generalizing fb with
  | nil => exact hw
  | cons i is ih => exact ih (wf_blitByte hw img x y w src j i)

theorem wf_blitBands {fb : Memory} (hw : Memory.wf Config.fbSize fb = true) (img : Memory) (x y : Int)
    (w h src : Nat) : Memory.wf Config.fbSize (blitBands img x y w h src fb) = true := by
  unfold blitBands
  induction List.range (bandCount h) generalizing fb with
  | nil => exact hw
  | cons j js ih => exact ih (wf_blitBand hw img x y w src j)

/-- Source byte (j, i) sets panel pixel (a, b) when the pixel lies in column X + i, `k` rows below row Y + 8 j for a `k`
in 0..7 whose bit is set (41_blit.md R114). -/
theorem testPixel_blitByte {fb : Memory} (hw : Memory.wf Config.fbSize fb = true) (img : Memory) (x y : Int)
    (w src j i : Nat) {a b : Int} (hab : inBounds a b = true) :
    testPixel (blitByte img x y w src j i fb) a b = (testPixel fb a b ||
      (decide (a = x + i ∧ y + 8 * j ≤ b ∧ b < y + 8 * j + 8) &&
        (imgRead img (imageAddress src w j i)).getLsbD (b - (y + 8 * j)).toNat)) := by
  have hab' := inBounds_iff.mp hab
  unfold blitByte
  simp only []
  split
  · rename_i hcol
    rw [testPixel_orByte (wf_orByte hw _ _ _) _ _ _ hab, testPixel_orByte hw _ _ _ hab, lowPart_bit _ (bitOf_lt b),
      highPart_bit]
    generalize imgRead img (imageAddress src w j i) = v
    by_cases ha : a = x + i
    · by_cases hlo : pageOf b = pageOf y + j
      · have hk : bitOf b - bitOf y = (b - (y + 8 * j)).toNat := by unfold pageOf at hlo; unfold bitOf; omega
        have hc : (bitOf y ≤ bitOf b) ↔ (y + 8 * j ≤ b ∧ b < y + 8 * j + 8) := by
          unfold pageOf at hlo; unfold bitOf; omega
        by_cases hle : bitOf y ≤ bitOf b
        · have := hc.mp hle
          simp [ha, hlo, hle, this, hk]
        · have : ¬(y + 8 * j ≤ b ∧ b < y + 8 * j + 8) := fun hn => hle (hc.mpr hn)
          simp [ha, hlo, hle, this]
      · by_cases hhi : pageOf b = pageOf y + j + 1
        · by_cases hlt : bitOf b < bitOf y
          · have hk : 8 - bitOf y + bitOf b = (b - (y + 8 * j)).toNat := by
              unfold pageOf at hhi; unfold bitOf at *; omega
            have hc : y + 8 * j ≤ b ∧ b < y + 8 * j + 8 := by unfold pageOf at hhi; unfold bitOf at hlt; omega
            simp [ha, hhi, hc, hk]
          · have hz : v.getLsbD (8 - bitOf y + bitOf b) = false :=
              BitVec.getLsbD_of_ge v _ (by have := bitOf_lt y; omega)
            have hc : ¬(y + 8 * j ≤ b ∧ b < y + 8 * j + 8) := by unfold pageOf at hhi; unfold bitOf at hlt; omega
            simp [ha, hhi, hc, hz]
        · have hc : ¬(y + 8 * j ≤ b ∧ b < y + 8 * j + 8) := by unfold pageOf at *; omega
          simp [hlo, hhi, hc]
    · simp [ha]
  · rename_i hcol
    have ha : ¬(a = x + i) := by omega
    simp [ha]

/-- Band `j` sets panel pixel (a, b) when the pixel lies in the band's rows and in one of its `w` columns and the source
bit there is set. -/
theorem testPixel_blitBand {fb : Memory} (hw : Memory.wf Config.fbSize fb = true) (img : Memory) (x y : Int)
    (w src j : Nat) {a b : Int} (hab : inBounds a b = true) :
    testPixel (blitBand img x y w src j fb) a b = (testPixel fb a b ||
      (decide (x ≤ a ∧ a < x + w ∧ y + 8 * j ≤ b ∧ b < y + 8 * j + 8) &&
        (imgRead img (imageAddress src w j (a - x).toNat)).getLsbD (b - (y + 8 * j)).toNat)) := by
  have key : ∀ (is : List Nat) (fb : Memory), Memory.wf Config.fbSize fb = true →
      testPixel (is.foldl (fun m i => blitByte img x y w src j i m) fb) a b = (testPixel fb a b ||
        (decide ((a - x).toNat ∈ is ∧ x ≤ a ∧ y + 8 * j ≤ b ∧ b < y + 8 * j + 8) &&
          (imgRead img (imageAddress src w j (a - x).toNat)).getLsbD (b - (y + 8 * j)).toNat)) := by
    intro is
    induction is with
    | nil => intro fb _; simp
    | cons i is ih =>
      intro fb hw
      rw [List.foldl_cons, ih _ (wf_blitByte hw img x y w src j i), testPixel_blitByte hw img x y w src j i hab]
      by_cases hi : a = x + i
      · have h1 : (a - x).toNat = i := by omega
        have h2 : x ≤ a := by omega
        have h3 : x ≤ x + (i : Int) := by omega
        have h4 : (x + (i : Int) - x).toNat = i := by omega
        simp only [hi, h3, h4, true_and, List.mem_cons, true_or]
        by_cases hr : y + 8 * (j : Int) ≤ b ∧ b < y + 8 * (j : Int) + 8
        · by_cases hm : i ∈ is <;> simp [hr, hm]
        · simp [hr]
      · have h1 : (x ≤ a ∧ (a - x).toNat = i) → False := fun h => hi (by omega)
        have h2 : ((a - x).toNat ∈ i :: is ∧ x ≤ a ∧ y + 8 * (j : Int) ≤ b ∧ b < y + 8 * (j : Int) + 8) ↔
            ((a - x).toNat ∈ is ∧ x ≤ a ∧ y + 8 * (j : Int) ≤ b ∧ b < y + 8 * (j : Int) + 8) := by
          rw [List.mem_cons]; constructor
          · rintro ⟨h | h, hx, hr⟩
            · exact absurd ⟨hx, h⟩ h1
            · exact ⟨h, hx, hr⟩
          · rintro ⟨h, hr⟩; exact ⟨.inr h, hr⟩
        simp only [hi, false_and, decide_false, Bool.false_and, Bool.or_false, h2]
  unfold blitBand
  rw [key _ _ hw]
  have : ((a - x).toNat ∈ List.range w ∧ x ≤ a ∧ y + 8 * (j : Int) ≤ b ∧ b < y + 8 * (j : Int) + 8) ↔
      (x ≤ a ∧ a < x + w ∧ y + 8 * (j : Int) ≤ b ∧ b < y + 8 * (j : Int) + 8) := by
    rw [List.mem_range]; omega
  simp only [this]

/-- Step 2 of BLIT sets panel pixel (a, b) when the pixel lies in columns X .. X + W - 1 and in the rows of the
bitmap's bands, Y .. Y + 8 NB - 1, and the source bit there is set (41_blit.md R117). -/
theorem testPixel_blitBands {fb : Memory} (hw : Memory.wf Config.fbSize fb = true) (img : Memory) (x y : Int)
    (w h src : Nat) {a b : Int} (hab : inBounds a b = true) :
    testPixel (blitBands img x y w h src fb) a b = (testPixel fb a b ||
      (decide (x ≤ a ∧ a < x + w ∧ y ≤ b ∧ b < y + 8 * bandCount h) &&
        (imgRead img (imageAddress src w ((b - y) / 8).toNat (a - x).toNat)).getLsbD ((b - y) % 8).toNat)) := by
  have key : ∀ (js : List Nat) (fb : Memory), Memory.wf Config.fbSize fb = true →
      testPixel (js.foldl (fun m j => blitBand img x y w src j m) fb) a b = (testPixel fb a b ||
        (decide (((b - y) / 8).toNat ∈ js ∧ x ≤ a ∧ a < x + w ∧ y ≤ b) &&
          (imgRead img (imageAddress src w ((b - y) / 8).toNat (a - x).toNat)).getLsbD ((b - y) % 8).toNat)) := by
    intro js
    induction js with
    | nil => intro fb _; simp
    | cons j js ih =>
      intro fb hw
      rw [List.foldl_cons, ih _ (wf_blitBand hw img x y w src j), testPixel_blitBand hw img x y w src j hab]
      by_cases hj : y + 8 * (j : Int) ≤ b ∧ b < y + 8 * (j : Int) + 8
      · have h1 : ((b - y) / 8).toNat = j := by omega
        have h2 : y ≤ b := by omega
        have h3 : (b - (y + 8 * (j : Int))).toNat = ((b - y) % 8).toNat := by omega
        simp only [h1, h2, h3, hj, and_true, List.mem_cons, true_or, true_and]
        by_cases hx : x ≤ a ∧ a < x + (w : Int)
        · by_cases hm : j ∈ js <;> simp [hx, hm]
        · simp [hx]
      · have h1 : (y ≤ b ∧ ((b - y) / 8).toNat = j) → False := fun h => hj (by omega)
        have h2 : (((b - y) / 8).toNat ∈ j :: js ∧ x ≤ a ∧ a < x + (w : Int) ∧ y ≤ b) ↔
            (((b - y) / 8).toNat ∈ js ∧ x ≤ a ∧ a < x + (w : Int) ∧ y ≤ b) := by
          rw [List.mem_cons]; constructor
          · rintro ⟨h | h, hx, hx', hy⟩
            · exact absurd ⟨hy, h⟩ h1
            · exact ⟨h, hx, hx', hy⟩
          · rintro ⟨h, hr⟩; exact ⟨.inr h, hr⟩
        have h3 : ¬(x ≤ a ∧ a < x + (w : Int) ∧ y + 8 * (j : Int) ≤ b ∧ b < y + 8 * (j : Int) + 8) := fun h => hj h.2.2
        simp only [h3, decide_false, Bool.false_and, Bool.or_false, h2]
  unfold blitBands
  rw [key _ _ hw]
  have : (((b - y) / 8).toNat ∈ List.range (bandCount h) ∧ x ≤ a ∧ a < x + (w : Int) ∧ y ≤ b) ↔
      (x ≤ a ∧ a < x + w ∧ y ≤ b ∧ b < y + 8 * bandCount h) := by
    rw [List.mem_range]; omega
  simp only [this]

end Sys2Proof.Machine
end

