-- ==== Sys2Proof/Laws/Decode.lean ====
section
/-! SUPPORT. The fields of an assembled word, and that the seven fields determine a word. -/

namespace Sys2Proof

section Fields
variable (op fl p q : Byte) (x y : BitVec 16) (aux : BitVec 32)

@[simp] theorem opField_wordOfFields : opField (wordOfFields op fl p q x y aux) = op := by
  unfold opField wordOfFields
  exact BitVec.extractLsb'_append_eq_left

@[simp] theorem flField_wordOfFields : flField (wordOfFields op fl p q x y aux) = fl := by
  apply BitVec.eq_of_getLsbD_eq
  intro k hk
  simp only [flField, wordOfFields, BitVec.getLsbD_extractLsb', BitVec.getLsbD_append]
  simp [hk, show 80 + k < 88 by omega, show ¬(80 + k < 80) by omega]

@[simp] theorem pField_wordOfFields : pField (wordOfFields op fl p q x y aux) = p := by
  apply BitVec.eq_of_getLsbD_eq
  intro k hk
  simp only [pField, wordOfFields, BitVec.getLsbD_extractLsb', BitVec.getLsbD_append]
  simp [hk, show 72 + k < 88 by omega, show 72 + k < 80 by omega, show ¬(72 + k < 72) by omega]

@[simp] theorem qField_wordOfFields : qField (wordOfFields op fl p q x y aux) = q := by
  apply BitVec.eq_of_getLsbD_eq
  intro k hk
  simp only [qField, wordOfFields, BitVec.getLsbD_extractLsb', BitVec.getLsbD_append]
  simp [hk, show 64 + k < 88 by omega, show 64 + k < 80 by omega, show 64 + k < 72 by omega, show ¬(64 + k < 64) by omega]

@[simp] theorem xField_wordOfFields : xField (wordOfFields op fl p q x y aux) = x := by
  apply BitVec.eq_of_getLsbD_eq
  intro k hk
  simp only [xField, wordOfFields, BitVec.getLsbD_extractLsb', BitVec.getLsbD_append]
  simp [hk, show 48 + k < 88 by omega, show 48 + k < 80 by omega, show 48 + k < 72 by omega, show 48 + k < 64 by omega,
    show ¬(48 + k < 48) by omega]

@[simp] theorem yField_wordOfFields : yField (wordOfFields op fl p q x y aux) = y := by
  apply BitVec.eq_of_getLsbD_eq
  intro k hk
  simp only [yField, wordOfFields, BitVec.getLsbD_extractLsb', BitVec.getLsbD_append]
  simp [hk, show 32 + k < 88 by omega, show 32 + k < 80 by omega, show 32 + k < 72 by omega, show 32 + k < 64 by omega,
    show 32 + k < 48 by omega, show ¬(32 + k < 32) by omega]

@[simp] theorem auxField_wordOfFields : auxField (wordOfFields op fl p q x y aux) = aux := by
  apply BitVec.eq_of_getLsbD_eq
  intro k hk
  simp only [auxField, wordOfFields, BitVec.getLsbD_extractLsb', BitVec.getLsbD_append]
  simp [hk, show k < 88 by omega, show k < 80 by omega, show k < 72 by omega, show k < 64 by omega,
    show k < 48 by omega]

end Fields

/-- The two fields of LINE inside AUX (30_encoding.md R61). -/
theorem x1Field_eq (c : CmdWord) : x1Field c = (auxField c).extractLsb' 16 16 := by
  apply BitVec.eq_of_getLsbD_eq
  intro k hk
  simp [x1Field, auxField, BitVec.getLsbD_extractLsb']

theorem y1Field_eq (c : CmdWord) : y1Field c = (auxField c).extractLsb' 0 16 := by
  apply BitVec.eq_of_getLsbD_eq
  intro k hk
  simp [y1Field, auxField, BitVec.getLsbD_extractLsb']

/-- Every word is the word of its seven fields: no bit of a word lies outside them (30_encoding.md R61). -/
theorem wordOfFields_fields (c : CmdWord) :
    wordOfFields (opField c) (flField c) (pField c) (qField c) (xField c) (yField c) (auxField c) = c := by
  apply BitVec.eq_of_getLsbD_eq
  intro k hk
  simp only [wordOfFields, opField, flField, pField, qField, xField, yField, auxField, BitVec.getLsbD_append,
    BitVec.getLsbD_extractLsb']
  by_cases h32 : k < 32
  · simp [h32, show k < 88 by omega, show k < 80 by omega, show k < 72 by omega, show k < 64 by omega, show k < 48 by omega]
  by_cases h48 : k < 48
  · simp [h32, h48, show k < 88 by omega, show k < 80 by omega, show k < 72 by omega, show k < 64 by omega,
      show k - 32 < 16 by omega, show 32 + (k - 32) = k by omega]
  by_cases h64 : k < 64
  · simp [h48, h64, show k < 88 by omega, show k < 80 by omega, show k < 72 by omega,
      show k - 48 < 16 by omega, show 48 + (k - 48) = k by omega]
  by_cases h72 : k < 72
  · simp [h64, h72, show k < 88 by omega, show k < 80 by omega,
      show k - 64 < 8 by omega, show 64 + (k - 64) = k by omega]
  by_cases h80 : k < 80
  · simp [h72, h80, show k < 88 by omega, show k - 72 < 8 by omega, show 72 + (k - 72) = k by omega]
  by_cases h88 : k < 88
  · simp [h80, h88, show k - 80 < 8 by omega, show 80 + (k - 80) = k by omega]
  · simp [h88, show k - 88 < 8 by omega, show 88 + (k - 88) = k by omega]

/-- The coordinate field keeps a coordinate in range whole. -/
theorem sext16_coordField {v : Int} (h : coordOk v = true) : sext16 (coordField v) = v := by
  simp only [coordOk, Bool.and_eq_true, decide_eq_true_eq] at h
  rw [sext16, coordField, BitVec.toInt_ofInt]
  simp only [Int.bmod]
  omega

/-- The dimension field keeps a dimension in range whole. -/
theorem zext8_dimField {v : Nat} (h : dimOk v = true) : zext8 (dimField v) = v := by
  simp only [dimOk, decide_eq_true_eq] at h
  simp only [zext8, dimField, BitVec.toNat_ofNat]
  omega

/-- Every 16-bit pattern is the field of the coordinate it is read as, and that coordinate is in range. -/
theorem coordField_sext16 (v : BitVec 16) : coordField (sext16 v) = v := by simp [coordField, sext16]

theorem coordOk_sext16 (v : BitVec 16) : coordOk (sext16 v) = true := by
  have h1 := BitVec.le_toInt v
  have h2 := BitVec.toInt_lt (x := v)
  simp only [sext16, coordOk, Bool.and_eq_true]
  exact ⟨decide_eq_true (by omega), decide_eq_true (by omega)⟩

theorem dimField_zext8 (v : Byte) : dimField (zext8 v) = v := by simp [dimField, zext8]

theorem dimOk_zext8 (v : Byte) : dimOk (zext8 v) = true := by
  have := v.isLt
  exact decide_eq_true (by simp only [zext8]; omega)

/-- A legal word passes the reserved-field check of its format, and the other way round. -/
theorem checked_ok_iff {c : CmdWord} {f : Format} {i j : Instr} :
    checked c f i = .ok j ↔ (∀ name ∈ f.reserved, name.isZero c = true) ∧ i = j := by
  unfold checked
  cases h : f.reserved.find? (fun name => !name.isZero c) with
  | some name =>
    have := List.find?_some h
    simp only [reduceCtorEq, false_iff, not_and]
    intro hall
    have hm := List.mem_of_find?_eq_some h
    simp [hall name hm] at this
  | none =>
    rw [List.find?_eq_none] at h
    simp only [Except.ok.injEq]
    exact ⟨fun hi => ⟨fun name hm => by simpa using h name hm, hi⟩, fun h => h.2⟩

end Sys2Proof
end

