-- ==== Sys2Proof/Laws/Raster.lean ====
section
/-! SUPPORT. Circles and ellipses as one list of plotted points each; what each list holds; the shape of the loops that
produce the sequences. -/

namespace Sys2Proof.Machine

/-! ## Circle -/

/-- The points one step of the filled circle plots (43_circle.md R132). -/
def fillPoints8 (cx cy : Int) (q : OctPoint) : List Point :=
  mirror8 cx cy q.x q.y ++ (spanPoints (cx - q.x) (cx + q.x) (cy + q.y) ++ (spanPoints (cx - q.x) (cx + q.x) (cy - q.y) ++
    (spanPoints (cx - q.y) (cx + q.y) (cy + q.x) ++ spanPoints (cx - q.y) (cx + q.y) (cy - q.x))))

theorem fill8_eq_plotAll (cx cy : Int) (fb : Memory) (q : OctPoint) :
    fill8 cx cy fb q = plotAll fb (fillPoints8 cx cy q) := by
  simp only [fill8, plot8, hspan, fillPoints8, plotAll_append]

/-- The outline circle plots the mirror points of the octant sequence. -/
theorem foldl_plot8 (cx cy : Int) (qs : List OctPoint) (fb : Memory) :
    qs.foldl (plot8 cx cy) fb = plotAll fb (qs.flatMap (fun q => mirror8 cx cy q.x q.y)) :=
  foldl_plotAll (fun q : OctPoint => mirror8 cx cy q.x q.y) qs fb

/-- The filled circle plots the mirror points and the spans of the octant sequence. -/
theorem foldl_fill8 (cx cy : Int) (qs : List OctPoint) (fb : Memory) :
    qs.foldl (fill8 cx cy) fb = plotAll fb (qs.flatMap (fillPoints8 cx cy)) := by
  rw [← foldl_plotAll (fillPoints8 cx cy)]
  congr 1
  funext m q
  exact fill8_eq_plotAll cx cy m q

theorem mem_fillPoints8 {cx cy a b : Int} {q : OctPoint} :
    (a, b) ∈ fillPoints8 cx cy q ↔ (a, b) ∈ mirror8 cx cy q.x q.y ∨
      (cx - q.x ≤ a ∧ a ≤ cx + q.x ∧ (b = cy + q.y ∨ b = cy - q.y)) ∨
      (cx - q.y ≤ a ∧ a ≤ cx + q.y ∧ (b = cy + q.x ∨ b = cy - q.x)) := by
  simp only [fillPoints8, List.mem_append, mem_spanPoints]
  tauto

/-- An octant sequence starts with its start point. -/
theorem octFrom_head (n : Nat) (q : OctPoint) : (octFrom n q).head? = some q := by
  cases n with
  | zero => rfl
  | succ n => simp only [octFrom]; split <;> rfl

/-- What every step of the octant generator keeps, every point of the sequence has. -/
theorem octFrom_invariant {P : OctPoint → Prop} (hstep : ∀ q, q.x < q.y → P q → P (octNext q)) {n : Nat} {q : OctPoint}
    (h : P q) : ∀ p ∈ octFrom n q, P p := by
  induction n generalizing q with
  | zero => intro p hp; simp [octFrom] at hp; exact hp ▸ h
  | succ n ih =>
    intro p hp
    simp only [octFrom] at hp
    split at hp
    · rcases List.mem_cons.mp hp with rfl | hp
      · exact h
      · exact ih (hstep q ‹_› h) p hp
    · simp at hp; exact hp ▸ h

/-! ## Ellipse -/

/-- The points one step of the filled ellipse plots (44_ellipse.md R143). -/
def fillPoints4 (cx cy : Int) (q : Point) : List Point :=
  mirror4 cx cy q.1 q.2 ++ (spanPoints (cx - q.1) (cx + q.1) (cy + q.2) ++ spanPoints (cx - q.1) (cx + q.1) (cy - q.2))

theorem fill4_eq_plotAll (cx cy : Int) (fb : Memory) (q : Point) : fill4 cx cy fb q = plotAll fb (fillPoints4 cx cy q) := by
  simp only [fill4, plot4, hspan, fillPoints4, plotAll_append]

/-- The outline ellipse plots the mirror points of the walk. -/
theorem foldl_plot4 (cx cy : Int) (qs : List Point) (fb : Memory) :
    qs.foldl (plot4 cx cy) fb = plotAll fb (qs.flatMap (fun q => mirror4 cx cy q.1 q.2)) :=
  foldl_plotAll (fun q : Point => mirror4 cx cy q.1 q.2) qs fb

/-- The filled ellipse plots the mirror points and the spans of the walk. -/
theorem foldl_fill4 (cx cy : Int) (qs : List Point) (fb : Memory) :
    qs.foldl (fill4 cx cy) fb = plotAll fb (qs.flatMap (fillPoints4 cx cy)) := by
  rw [← foldl_plotAll (fillPoints4 cx cy)]
  congr 1
  funext m q
  exact fill4_eq_plotAll cx cy m q

theorem mem_fillPoints4 {cx cy a b : Int} {q : Point} :
    (a, b) ∈ fillPoints4 cx cy q ↔ (a, b) ∈ mirror4 cx cy q.1 q.2 ∨
      (cx - q.1 ≤ a ∧ a ≤ cx + q.1 ∧ (b = cy + q.2 ∨ b = cy - q.2)) := by
  simp only [fillPoints4, List.mem_append, mem_spanPoints]
  tauto

/-- Region 1 starts with its start point. -/
theorem ellRegion1_head (a b : Int) (n : Nat) (q : Point) : (ellRegion1 a b n q).head? = some q := by
  cases n with
  | zero => rfl
  | succ n => simp only [ellRegion1]; split <;> rfl

/-! ## Line -/

/-- A run of `n` steps has `n + 1` points. -/
theorem length_lineFrom (dx dy : Int) (n : Nat) (q : LinePoint) : (lineFrom dx dy n q).length = n + 1 := by
  induction n generalizing q with
  | zero => rfl
  | succ n ih => simp [lineFrom, ih]

/-- What every step of the recurrence keeps, every running point has. -/
theorem lineFrom_invariant {P : LinePoint → Prop} {dx dy : Int} (hstep : ∀ q, P q → P (lineNext dx dy q)) {n : Nat}
    {q : LinePoint} (h : P q) : ∀ p ∈ lineFrom dx dy n q, P p := by
  induction n generalizing q with
  | zero => intro p hp; simp [lineFrom] at hp; exact hp ▸ h
  | succ n ih =>
    intro p hp
    rcases List.mem_cons.mp hp with rfl | hp
    · exact h
    · exact ih (hstep q h) p hp

/-- The running point after `k` steps of a first-octant line from (X, Y): the minor coordinate is the ideal one rounded. -/
def lineAt (X Y dx dy : Int) (k : Nat) : LinePoint :=
  ⟨X + k, Y + (2 * k * dy + dx) / (2 * dx), 2 * dy * (k + 1) - dx - 2 * dx * ((2 * k * dy + dx) / (2 * dx))⟩

/-- One step of the recurrence goes from the `k`-th point of the closed form to the next. -/
theorem lineNext_lineAt (X Y : Int) {dx dy : Int} (h0 : 0 ≤ dy) (h1 : dy ≤ dx) (h2 : 0 < dx) (k : Nat) :
    lineNext dx dy (lineAt X Y dx dy k) = lineAt X Y dx dy (k + 1) := by
  have e1 := Int.mul_ediv_add_emod (2 * k * dy + dx) (2 * dx)
  have e2 := Int.emod_nonneg (2 * k * dy + dx) (show 2 * dx ≠ 0 by omega)
  have e3 := Int.emod_lt_of_pos (2 * k * dy + dx) (show 0 < 2 * dx by omega)
  generalize hm : (2 * (k : Int) * dy + dx) / (2 * dx) = m at e1
  generalize (2 * (k : Int) * dy + dx) % (2 * dx) = r at e1 e2 e3
  have key : ∀ m', 2 * dx * m' ≤ 2 * (k + 1) * dy + dx → 2 * (k + 1) * dy + dx < 2 * dx * (m' + 1) →
      (2 * ((k + 1 : Nat) : Int) * dy + dx) / (2 * dx) = m' := by
    intro m' ha hb
    rw [Int.ediv_eq_iff_of_pos (by omega)]
    push_cast
    constructor <;> linarith
  unfold lineNext lineAt
  simp only [hm]
  by_cases hd : 2 * dy * ((k : Int) + 1) - dx - 2 * dx * m < 0
  · rw [key m (by linarith) (by linarith)]
    simp only [hd, if_true, LinePoint.mk.injEq]
    push_cast
    exact ⟨by ring, trivial, by ring⟩
  · rw [key (m + 1) (by linarith) (by linarith)]
    simp only [hd, if_false, LinePoint.mk.injEq]
    push_cast
    exact ⟨by ring, by ring, by ring⟩

/-- A run of a first-octant line is the closed form at every step. -/
theorem lineFrom_lineAt (X Y : Int) {dx dy : Int} (h0 : 0 ≤ dy) (h1 : dy ≤ dx) (h2 : 0 < dx) (n k : Nat) :
    lineFrom dx dy n (lineAt X Y dx dy k) = (List.range (n + 1)).map (fun j => lineAt X Y dx dy (k + j)) := by
  induction n generalizing k with
  | zero => simp [lineFrom]
  | succ n ih =>
    rw [lineFrom, lineNext_lineAt X Y h0 h1 h2, ih, List.range_succ_eq_map (n := n + 1), List.map_cons, List.map_map]
    simp [Function.comp_def, Nat.add_assoc, Nat.add_comm 1]

theorem lineAt_zero (X Y : Int) {dx dy : Int} (h2 : 0 < dx) : lineAt X Y dx dy 0 = ⟨X, Y, 2 * dy - dx⟩ := by
  have : dx / (2 * dx) = 0 := Int.ediv_eq_zero_of_lt (by omega) (by omega)
  simp [lineAt, this]

end Sys2Proof.Machine
end

