-- ==== Sys2Proof/Laws/State.lean ====
section
/-! SUPPORT. One lemma per field per state update of Machine/Ops.lean, so that no later proof unfolds a record update. -/

namespace Sys2Proof.Machine

variable (s : State) (st : Status) (data : Byte) (fb img : Memory) (rest : List Input) (a : ImgAddr) (b : Byte)

@[simp] theorem State.respond_fb : (s.respond st data).fb = s.fb := rfl
@[simp] theorem State.respond_img : (s.respond st data).img = s.img := rfl
@[simp] theorem State.respond_busy : (s.respond st data).busy = false := rfl
@[simp] theorem State.respond_inputs : (s.respond st data).inputs = s.inputs := rfl
@[simp] theorem State.respond_responses : (s.respond st data).responses = s.responses ++ [⟨st, data⟩] := rfl
@[simp] theorem State.respond_resets : (s.respond st data).resets = s.resets := rfl

@[simp] theorem State.drawn_fb : (s.drawn fb).fb = fb := rfl
@[simp] theorem State.drawn_img : (s.drawn fb).img = s.img := rfl
@[simp] theorem State.drawn_busy : (s.drawn fb).busy = false := rfl
@[simp] theorem State.drawn_inputs : (s.drawn fb).inputs = s.inputs := rfl
@[simp] theorem State.drawn_responses : (s.drawn fb).responses = s.responses ++ [⟨.ok, 0#8⟩] := rfl
@[simp] theorem State.drawn_resets : (s.drawn fb).resets = s.resets := rfl

@[simp] theorem State.answered_fb : (s.answered data).fb = s.fb := rfl
@[simp] theorem State.answered_img : (s.answered data).img = s.img := rfl
@[simp] theorem State.answered_busy : (s.answered data).busy = false := rfl
@[simp] theorem State.answered_inputs : (s.answered data).inputs = s.inputs := rfl
@[simp] theorem State.answered_responses : (s.answered data).responses = s.responses ++ [⟨.ok, data⟩] := rfl
@[simp] theorem State.answered_resets : (s.answered data).resets = s.resets := rfl

@[simp] theorem State.raiseIllegal_fb : s.raiseIllegal.fb = s.fb := rfl
@[simp] theorem State.raiseIllegal_img : s.raiseIllegal.img = s.img := rfl
@[simp] theorem State.raiseIllegal_busy : s.raiseIllegal.busy = false := rfl
@[simp] theorem State.raiseIllegal_inputs : s.raiseIllegal.inputs = s.inputs := rfl
@[simp] theorem State.raiseIllegal_responses : s.raiseIllegal.responses = s.responses ++ [⟨.illegal, 0#8⟩] := rfl
@[simp] theorem State.raiseIllegal_resets : s.raiseIllegal.resets = s.resets := rfl

@[simp] theorem State.accept_fb : (s.accept rest).fb = s.fb := rfl
@[simp] theorem State.accept_img : (s.accept rest).img = s.img := rfl
@[simp] theorem State.accept_busy : (s.accept rest).busy = true := rfl
@[simp] theorem State.accept_inputs : (s.accept rest).inputs = rest := rfl
@[simp] theorem State.accept_responses : (s.accept rest).responses = s.responses := rfl
@[simp] theorem State.accept_resets : (s.accept rest).resets = s.resets := rfl

@[simp] theorem State.takeReset_fb :
    (s.takeReset rest).fb = Memory.tabulate (Config.resetByte s.resets) Config.fbSize 0 := rfl
@[simp] theorem State.takeReset_img : (s.takeReset rest).img = s.img := rfl
@[simp] theorem State.takeReset_busy : (s.takeReset rest).busy = false := rfl
@[simp] theorem State.takeReset_inputs : (s.takeReset rest).inputs = rest := rfl
@[simp] theorem State.takeReset_responses : (s.takeReset rest).responses = s.responses := rfl
@[simp] theorem State.takeReset_resets : (s.takeReset rest).resets = s.resets + 1 := rfl

@[simp] theorem State.takeImageWrite_fb : (s.takeImageWrite a b rest).fb = s.fb := rfl
@[simp] theorem State.takeImageWrite_img : (s.takeImageWrite a b rest).img = Memory.write s.img a.toNat b := rfl
@[simp] theorem State.takeImageWrite_busy : (s.takeImageWrite a b rest).busy = s.busy := rfl
@[simp] theorem State.takeImageWrite_inputs : (s.takeImageWrite a b rest).inputs = rest := rfl
@[simp] theorem State.takeImageWrite_responses : (s.takeImageWrite a b rest).responses = s.responses := rfl
@[simp] theorem State.takeImageWrite_resets : (s.takeImageWrite a b rest).resets = s.resets := rfl

@[simp] theorem State.resetWith_fb : (State.resetWith fb img).fb = fb := rfl
@[simp] theorem State.resetWith_img : (State.resetWith fb img).img = img := rfl
@[simp] theorem State.resetWith_busy : (State.resetWith fb img).busy = false := rfl
@[simp] theorem State.resetWith_inputs : (State.resetWith fb img).inputs = [] := rfl
@[simp] theorem State.resetWith_responses : (State.resetWith fb img).responses = [] := rfl
@[simp] theorem State.resetWith_resets : (State.resetWith fb img).resets = 0 := rfl

end Sys2Proof.Machine
end

