-- ==== Sys2Proof/Laws/Exec.lean ====
section
/-! SUPPORT. What a command and what a step can do, said once. -/

namespace Sys2Proof.Machine

/-! ## One equation per command: the framebuffer it draws, or the byte it answers -/

section Equations
variable (s : State)

@[simp] theorem exec_clr : exec .clr s = .next (s.drawn (mapBytes (fun _ => 0#8) s.fb)) := rfl
@[simp] theorem exec_clra (x y : Int) (w h : Nat) :
    exec (.clra x y w h) s = .next (s.drawn (unplotAll s.fb (rectPoints x y w h))) := rfl
@[simp] theorem exec_inv : exec .inv s = .next (s.drawn (mapBytes (fun b => b ^^^ 0xFF#8) s.fb)) := rfl
@[simp] theorem exec_inva (x y : Int) (w h : Nat) :
    exec (.inva x y w h) s = .next (s.drawn (toggleAll s.fb (rectPoints x y w h))) := rfl
@[simp] theorem exec_setp (x y : Int) : exec (.setp x y) s = .next (s.drawn (plot s.fb x y)) := rfl
@[simp] theorem exec_getp (x y : Int) :
    exec (.getp x y) s = .next (s.answered (pixelByte (testPixel s.fb x y))) := rfl
@[simp] theorem exec_rdb (page col : Nat) :
    exec (.rdb page col) s = .next (s.answered (readOut s.fb page col)) := rfl
@[simp] theorem exec_blit (x y : Int) (w h src : Nat) : exec (.blit x y w h src) s =
    .next (s.drawn (blitBands s.img x y w h src (unplotAll s.fb (rectPoints x y w h)))) := rfl
@[simp] theorem exec_line (x0 y0 x1 y1 : Int) :
    exec (.line x0 y0 x1 y1) s = .next (s.drawn (plotAll s.fb (linePixels x0 y0 x1 y1))) := rfl
@[simp] theorem exec_circ (x y : Int) (r : Nat) : exec (.circ x y r) s =
    .next (s.drawn (plotAll s.fb ((oct r).flatMap (fun q => mirror8 x y q.x q.y)))) := by
  rw [← foldl_plot8]; rfl
@[simp] theorem exec_circf (x y : Int) (r : Nat) : exec (.circf x y r) s =
    .next (s.drawn (plotAll s.fb ((oct r).flatMap (fillPoints8 x y)))) := by
  rw [← foldl_fill8]; rfl
@[simp] theorem exec_elps (x y : Int) (a b : Nat) : exec (.elps x y a b) s =
    .next (s.drawn (plotAll s.fb ((ellWalk a b).flatMap (fun q => mirror4 x y q.1 q.2)))) := by
  rw [← foldl_plot4]; rfl
@[simp] theorem exec_elpsf (x y : Int) (a b : Nat) : exec (.elpsf x y a b) s =
    .next (s.drawn (plotAll s.fb ((ellWalk a b).flatMap (fillPoints4 x y)))) := by
  rw [← foldl_fill4]; rfl

theorem drew_drawn (fb : Memory) : s.Drew (s.drawn fb) := ⟨⟨rfl, rfl, rfl⟩, rfl, rfl⟩

end Equations

/-- Everything a command does: it answers a next state in which only the framebuffer, the response list (one response
more, status OK) and the busy bit can differ, and a canonical framebuffer stays canonical. -/
theorem exec_shape (i : Instr) (s : State) : ∃ fb data,
    exec i s = .next (State.respond { s with fb := fb } .ok data) ∧
      (Memory.wf Config.fbSize s.fb = true → Memory.wf Config.fbSize fb = true) := by
  cases i with
  | clr => exact ⟨_, _, rfl, fun _ => wf_mapBytes _ _⟩
  | clra x y w h => exact ⟨_, _, rfl, fun hw => wf_unplotAll hw _⟩
  | inv => exact ⟨_, _, rfl, fun _ => wf_mapBytes _ _⟩
  | inva x y w h => exact ⟨_, _, rfl, fun hw => wf_toggleAll hw _⟩
  | setp x y => exact ⟨_, _, rfl, fun hw => wf_plot hw _ _⟩
  | getp x y => exact ⟨s.fb, _, rfl, id⟩
  | rdb page col => exact ⟨s.fb, _, rfl, id⟩
  | blit x y w h src => exact ⟨_, _, rfl, fun hw => wf_blitBands (wf_unplotAll hw _) _ _ _ _ _ _⟩
  | line x0 y0 x1 y1 => exact ⟨_, _, rfl, fun hw => wf_plotAll hw _⟩
  | circ x y r => exact ⟨_, _, rfl, fun hw => foldl_plot8 x y (oct r) s.fb ▸ wf_plotAll hw _⟩
  | circf x y r => exact ⟨_, _, rfl, fun hw => foldl_fill8 x y (oct r) s.fb ▸ wf_plotAll hw _⟩
  | elps x y a b => exact ⟨_, _, rfl, fun hw => foldl_plot4 x y (ellWalk a b) s.fb ▸ wf_plotAll hw _⟩
  | elpsf x y a b => exact ⟨_, _, rfl, fun hw => foldl_fill4 x y (ellWalk a b) s.fb ▸ wf_plotAll hw _⟩

/-- Everything a step does: idle with nothing presented; a reset; a platform write; a word that waits because the block
is busy; a legal word run; an illegal word answered. -/
theorem step_cases (s : State) :
    (s.inputs = [] ∧ step s = .next s) ∨
    (∃ f rest, s.inputs = .reset f :: rest ∧ step s = .next (s.takeReset rest)) ∨
    (∃ a b rest, s.inputs = .imageWrite a b :: rest ∧ step s = .next (s.takeImageWrite a b rest)) ∨
    (∃ w rest, s.inputs = .command w :: rest ∧ s.busy = true ∧ step s = .next s) ∨
    (∃ w rest i, s.inputs = .command w :: rest ∧ s.busy = false ∧ decode w = .ok i ∧
      step s = exec i (s.accept rest)) ∨
    (∃ w rest e, s.inputs = .command w :: rest ∧ s.busy = false ∧ decode w = .error e ∧
      step s = .next (s.accept rest).raiseIllegal) := by
  unfold step
  rcases hin : s.inputs with _ | ⟨⟨w⟩ | f | ⟨a, b⟩, rest⟩
  · exact .inl ⟨rfl, rfl⟩
  · rcases hb : s.busy with _ | _
    · rcases hd : decode w with e | i
      · exact .inr (.inr (.inr (.inr (.inr ⟨w, rest, e, rfl, rfl, hd, by simp [State.fetch, hb, hin, hd]⟩))))
      · exact .inr (.inr (.inr (.inr (.inl ⟨w, rest, i, rfl, rfl, hd, by simp [State.fetch, hb, hin, hd]⟩))))
    · exact .inr (.inr (.inr (.inl ⟨w, rest, rfl, rfl, by simp [State.fetch, hb, hin]⟩)))
  · exact .inr (.inl ⟨f, rest, rfl, rfl⟩)
  · exact .inr (.inr (.inl ⟨a, b, rest, rfl, rfl⟩))

/-- `RowMask(p)` bit by bit (40_pixel_ops.md R99). -/
theorem rowMask_bit (y : Int) (h : Nat) (p : Int) {k : Nat} (hk : k < 8) :
    (rowMask y h p).getLsbD k = decide (y ≤ 8 * p + (k : Int) ∧ 8 * p + (k : Int) ≤ y + h - 1) := by
  have key : ∀ (f : Nat → Prop) [DecidablePred f], ∀ n ≤ 8, ∀ k < 8,
      ((List.range n).foldl (fun (m : Byte) (k : Nat) => if f k then m ||| (1#8 <<< k) else m) 0#8).getLsbD k =
        decide (k < n ∧ f k) := by
    intro f _ n hn
    induction n with
    | zero => simp
    | succ n ih =>
      intro k hk
      have ih := ih (by omega) k hk
      rw [List.range_succ, List.foldl_append]
      simp only [List.foldl_cons, List.foldl_nil]
      by_cases hkn : k = n
      · subst hkn
        split
        · rename_i hc; simp [hc, hk]
        · rename_i hc; rw [ih]; simp [hc]
      · have e : (k < n + 1 ∧ f k) ↔ (k < n ∧ f k) := by
          constructor <;> rintro ⟨a, b⟩ <;> exact ⟨by omega, b⟩
        simp only [e]
        split
        · rw [BitVec.getLsbD_or, ih]
          have : ((1#8 <<< n).getLsbD k) = false := by
            simp only [BitVec.getLsbD_shiftLeft]
            by_cases hlt : k < n
            · simp [hlt]
            · have : k - n ≠ 0 := by omega
              simp [this]
          rw [this]; simp
        · rw [ih]
  rw [rowMask, key _ 8 le_rfl k hk]; simp [hk]

end Sys2Proof.Machine
end

