-- ==== Sys2Proof/Laws/PerInstr.lean ====
section
/-! SUPPORT. Laws stated of the command as syntax, one lemma per constructor. Family `HeadBytes`: the first two bytes of a
command's word are the opcode and the fill flag that 30_encoding.md R66 gives its mnemonic. -/

namespace Sys2Proof.Laws.HeadBytes

/-- The opcode and the flag byte of a mnemonic's row (30_encoding.md R66). -/
def head (mnemonic : String) : Option (Byte × Byte) :=
  (opcodeTable.find? (fun r => r.mnemonic == mnemonic)).map (fun r => (opField r.pattern, flField r.pattern))

/-- The word of the command begins with the two bytes of its row. -/
def Statement (i : Instr) : Prop := head i.mnemonic = some (opField (encode i), flField (encode i))

/-- The head of a word assembled from its fields. -/
theorem of_fields {i : Instr} {op fl p q : Byte} {x y : BitVec 16} {aux : BitVec 32}
    (he : encode i = wordOfFields op fl p q x y aux) (hh : head i.mnemonic = some (op, fl)) : Statement i := by
  simp only [Statement, he, hh, opField_wordOfFields, flField_wordOfFields]

theorem clr : Statement .clr := of_fields rfl rfl
theorem clra (x y : Int) (w h : Nat) : Statement (.clra x y w h) := of_fields rfl rfl
theorem inv : Statement .inv := of_fields rfl rfl
theorem inva (x y : Int) (w h : Nat) : Statement (.inva x y w h) := of_fields rfl rfl
theorem setp (x y : Int) : Statement (.setp x y) := of_fields rfl rfl
theorem getp (x y : Int) : Statement (.getp x y) := of_fields rfl rfl
theorem rdb (page col : Nat) : Statement (.rdb page col) := of_fields rfl rfl
theorem blit (x y : Int) (w h src : Nat) : Statement (.blit x y w h src) := of_fields rfl rfl
theorem line (x0 y0 x1 y1 : Int) : Statement (.line x0 y0 x1 y1) := of_fields rfl rfl
theorem circ (x y : Int) (r : Nat) : Statement (.circ x y r) := of_fields rfl rfl
theorem circf (x y : Int) (r : Nat) : Statement (.circf x y r) := of_fields rfl rfl
theorem elps (x y : Int) (a b : Nat) : Statement (.elps x y a b) := of_fields rfl rfl
theorem elpsf (x y : Int) (a b : Nat) : Statement (.elpsf x y a b) := of_fields rfl rfl

end Sys2Proof.Laws.HeadBytes
end

