-- ==== Sys2Proof/Tests/Slice0.lean ====
section
/-! SUPPORT. The model's own tests. Words and results are those of spec/95_test_vectors.md (its row ids stand in the
docstrings) and of the examples of the rules; a word is written from the field table of 30_encoding.md R61. Then one witness
for every statement that has hypotheses. -/

namespace Sys2Proof.Tests

open Sys2Proof Sys2Proof.Machine

-- One theorem at a time: checked side by side, these evaluations start more threads than the check's memory limit allows.
set_option Elab.async false

/-! ## WellFormed: each range check refuses -/

theorem test_wf_x_above : Instr.wf (.setp 32768 0) = false := by decide
theorem test_wf_x_below : Instr.wf (.getp (-32769) 0) = false := by decide
theorem test_wf_y_above : Instr.wf (.clra 0 32768 1 1) = false := by decide
theorem test_wf_y_below : Instr.wf (.inva 0 (-32769) 1 1) = false := by decide
theorem test_wf_width : Instr.wf (.clra 0 0 256 1) = false := by decide
theorem test_wf_height : Instr.wf (.blit 0 0 1 256 0) = false := by decide
theorem test_wf_page : Instr.wf (.rdb 256 0) = false := by decide
theorem test_wf_col : Instr.wf (.rdb 0 256) = false := by decide
theorem test_wf_src : Instr.wf (.blit 0 0 1 1 4294967296) = false := by decide
theorem test_wf_x1 : Instr.wf (.line 0 0 32768 0) = false := by decide
theorem test_wf_y1 : Instr.wf (.line 0 0 0 (-32769)) = false := by decide
theorem test_wf_radius : Instr.wf (.circ 0 0 256) = false ∧ Instr.wf (.circf 0 0 256) = false := by decide
theorem test_wf_axis : Instr.wf (.elps 0 0 256 0) = false ∧ Instr.wf (.elpsf 0 0 0 256) = false := by decide
theorem test_wf_extremes : Instr.wf (.blit (-32768) 32767 255 0 4294967295) = true := by decide

/-! ## Decoding: a word of every command, illegal words -/

theorem test_decode_clr : decode 0x010000000000000000000000#96 = .ok .clr := by decide
theorem test_decode_clra : decode 0x020003040002000600000000#96 = .ok (.clra 2 6 3 4) := by decide
theorem test_decode_inv : decode 0x030000000000000000000000#96 = .ok .inv := by decide
theorem test_decode_inva : decode 0x04000505007E003E00000000#96 = .ok (.inva 126 62 5 5) := by decide
theorem test_decode_setp : decode 0x05000000FFFF000000000000#96 = .ok (.setp (-1) 0) := by decide
theorem test_decode_getp : decode 0x060000000005000A00000000#96 = .ok (.getp 5 10) := by decide
theorem test_decode_rdb : decode 0x0700017F0000000000000000#96 = .ok (.rdb 1 127) := by decide
theorem test_decode_blit :
    decode 0x08000810000AFFFD20001000#96 = .ok (.blit 10 (-3) 8 16 0x20001000) := by decide
theorem test_decode_line : decode 0x09000000FFFEFFFF00050003#96 = .ok (.line (-2) (-1) 5 3) := by decide
theorem test_decode_circ : decode 0x0A000A00FFFB002000000000#96 = .ok (.circ (-5) 32 10) := by decide
theorem test_decode_circf : decode 0x0A010A000040002000000000#96 = .ok (.circf 64 32 10) := by decide
theorem test_decode_elps : decode 0x0B00140A0040002000000000#96 = .ok (.elps 64 32 20 10) := by decide
theorem test_decode_elpsf : decode 0x0B0106030008000400000000#96 = .ok (.elpsf 8 4 6 3) := by decide
/-- 60_exceptions.md R171: opcode 0x0C is unassigned. -/
theorem test_decode_unassigned :
    decode 0x0C0000000000000000000000#96 = .error (.unassignedOpcode 0x0C) := by decide
/-- 60_exceptions.md R171: CLR with AUX not 0. -/
theorem test_decode_clr_aux : decode 0x010000000000000000000001#96 = .error (.reservedField .aux) := by decide
/-- 60_exceptions.md R171: CIRCF with Q = 1. -/
theorem test_decode_circf_q : decode 0x0A0105010040002000000000#96 = .error (.reservedField .q) := by decide
theorem test_decode_fill_without_flag : decode 0x050100000005000A00000000#96 = .error (.reservedField .fl) := by decide
theorem test_decode_high_flags : decode 0x0B0206030008000400000000#96 = .error (.reservedField .flHigh) := by decide
theorem test_encode_elpsf : encode (.elpsf 8 4 6 3) = 0x0B0106030008000400000000#96 := by decide
theorem test_table_word : decodeTableWord 96 0x050000000005000A00000000 = some (.setp 5 10) := by decide
/-- 30_encoding.md R63. -/
theorem test_parts : partsOfWord 0x08000810000AFFFD20001000#96 = [0x08000810#32, 0x000AFFFD#32, 0x20001000#32] := by
  decide
theorem test_written_word : writtenWord 0x05000000FFFF000000000000#96 = "0x05000000FFFF000000000000" := by
  decide +kernel
theorem test_listing : Instr.listing (.blit 10 (-3) 8 16 4096) = "BLIT 10, -3, 8, 16, 4096" := by decide +kernel

/-! ## One step of each command -/

/-- The idle block with these memories and one word at its port. -/
def port (fb img : Memory) (w : CmdWord) : State := { State.resetWith fb img with inputs := [.command w] }

/-- The cells of consecutive bytes of one page from a column on. -/
def bytes (p c : Nat) (bs : List Byte) : Memory := bs.mapIdx (fun k b => (128 * p + c + k, b))

/-- The framebuffer and the responses after one step. -/
def after (s : State) : Option (Memory × List Response) :=
  match step s with
  | .next t => some (t.fb, t.responses)
  | .fault _ => none
  | .refused _ => none

/-- The framebuffer after one step of a command that answered (OK, 0x00). -/
def fbAfter (s : State) : Option Memory :=
  match after s with
  | some (fb, [⟨.ok, 0x00#8⟩]) => some fb
  | _ => none

/-- The bitmaps of the vectors that the tests use (`IMG_T`). -/
def img : Memory :=
  [(0, 0x33#8), (1, 0x44#8)] ++
  [(0x1000, 0xFF#8), (0x1001, 0x81#8), (0x1002, 0x81#8), (0x1003, 0xFF#8)] ++
  [(0x2000, 0xFF#8), (0x2001, 0xAA#8), (0x2002, 0xFF#8), (0x2003, 0x55#8)] ++
  [(0xFFFFFFFE, 0x11#8), (0xFFFFFFFF, 0x22#8)]

/-- R90. -/
theorem test_clr : fbAfter (port (bytes 0 0 [0xFF, 0x12] ++ bytes 7 127 [0x80]) [] 0x010000000000000000000000#96) =
    some [] := by decide +kernel
/-- R91: with every byte of the rectangle's pages 0xFF. -/
theorem test_clra : fbAfter (port
      (bytes 0 1 [0xFF, 0xFF, 0xFF, 0xFF, 0xFF] ++ bytes 1 1 [0xFF, 0xFF, 0xFF, 0xFF, 0xFF]) []
      0x020003040002000600000000#96) =
    some (bytes 0 1 [0xFF, 0x3F, 0x3F, 0x3F, 0xFF] ++ bytes 1 1 [0xFF, 0xFC, 0xFC, 0xFC, 0xFF]) := by decide +kernel
/-- R92. -/
theorem test_inv : (fbAfter (port (bytes 0 0 [0xFF, 0x0F]) [] 0x030000000000000000000000#96)).map
    (fun m => (m.length, m.head?, m.getLast?)) = some (1023, some (1, 0xF0#8), some (1023, 0xFF#8)) := by decide +kernel
/-- R93. -/
theorem test_inva : fbAfter (port [] [] 0x04000505007E003E00000000#96) = some (bytes 7 126 [0xC0, 0xC0]) := by
  decide +kernel
/-- X2a. -/
theorem test_inva_pages : fbAfter (port [] [] 0x040001020000000700000000#96) =
    some (bytes 0 0 [0x80] ++ bytes 1 0 [0x01]) := by decide +kernel
/-- R94. -/
theorem test_setp : fbAfter (port [] [] 0x050000000005000A00000000#96) = some (bytes 1 5 [0x04]) := by decide +kernel
/-- R94: out of bounds. -/
theorem test_setp_out : fbAfter (port (bytes 0 0 [0x10]) [] 0x05000000FFFF000000000000#96) = some (bytes 0 0 [0x10]) := by
  decide +kernel
/-- R95. -/
theorem test_getp : after (port (bytes 1 5 [0x04]) [] 0x060000000005000A00000000#96) =
    some (bytes 1 5 [0x04], [⟨.ok, 0x01⟩]) := by decide +kernel
/-- R95: `GETP 5, 11` beside the set pixel. -/
theorem test_getp_clear : after (port (bytes 1 5 [0x04]) [] 0x060000000005000B00000000#96) =
    some (bytes 1 5 [0x04], [⟨.ok, 0x00⟩]) := by decide +kernel
/-- R96. -/
theorem test_rdb : after (port (bytes 1 5 [0x04]) [] 0x070001050000000000000000#96) =
    some (bytes 1 5 [0x04], [⟨.ok, 0x04⟩]) := by decide +kernel
/-- R96: `RDB 0, 133` is out of range, not byte 5 of page 1. -/
theorem test_rdb_out : after (port (bytes 1 5 [0x04]) [] 0x070000850000000000000000#96) =
    some (bytes 1 5 [0x04], [⟨.ok, 0x00⟩]) := by decide +kernel
/-- R119: two bands, height 10, over bytes that were all 0xFF. -/
theorem test_blit : fbAfter (port (bytes 0 0 [0xFF, 0xFF] ++ bytes 1 0 [0xFF, 0xFF] ++ bytes 2 0 [0xFF, 0xFF]) img
      0x0800020A0000000400002000#96) =
    some (bytes 0 0 [0xFF, 0xAF] ++ bytes 1 0 [0xFF, 0xDA] ++ bytes 2 0 [0xFF, 0xFF]) := by decide +kernel
/-- B20: the source address wraps. -/
theorem test_blit_wrap : fbAfter (port [] img 0x0800040800000000FFFFFFFE#96) =
    some (bytes 0 0 [0x11, 0x22, 0x33, 0x44]) := by decide +kernel
/-- L6: steep and y negated. -/
theorem test_line : fbAfter (port [] [] 0x090000000003000000000007#96) = some (bytes 0 0 [0xC0, 0x30, 0x0C, 0x03]) := by
  decide +kernel
/-- L9: ties under y negation. -/
theorem test_line_tie : fbAfter (port [] [] 0x090000000000000200040000#96) =
    some (bytes 0 0 [0x04, 0x02, 0x02, 0x01, 0x01]) := by decide +kernel
/-- C11. -/
theorem test_circ : fbAfter (port [] [] 0x0A0003000000000000000000#96) = some (bytes 0 0 [0x08, 0x08, 0x04, 0x03]) := by
  decide +kernel
/-- C9. -/
theorem test_circ_four : fbAfter (port [] [] 0x0A0004000014001400000000#96) =
    some (bytes 2 16 [0x38, 0xC6, 0x82, 0x01, 0x01, 0x01, 0x82, 0xC6, 0x38] ++ bytes 3 19 [0x01, 0x01, 0x01]) := by
  decide +kernel
/-- C12. -/
theorem test_circf : fbAfter (port [] [] 0x0A0103000000000000000000#96) = some (bytes 0 0 [0x0F, 0x0F, 0x07, 0x03]) := by
  decide +kernel
/-- C14. -/
theorem test_circf_corner : fbAfter (port [] [] 0x0A010200007F003F00000000#96) =
    some (bytes 7 125 [0xC0, 0xE0, 0xE0]) := by decide +kernel
/-- E1. -/
theorem test_elps : fbAfter (port [] [] 0x0B0006030008000400000000#96) =
    some (bytes 0 2 [0x38, 0x44, 0x44, 0x82, 0x82, 0x82, 0x82, 0x82, 0x82, 0x82, 0x44, 0x44, 0x38]) := by decide +kernel
/-- E7: the walk ends at x = 5, below A. -/
theorem test_elps_flat : fbAfter (port [] [] 0x0B0006020014001400000000#96) =
    some (bytes 2 15 [0x10, 0x28, 0x44, 0x44, 0x44, 0x44, 0x44, 0x44, 0x44, 0x28, 0x10]) := by decide +kernel
/-- E2. -/
theorem test_elpsf : fbAfter (port [] [] 0x0B0106030008000400000000#96) =
    some (bytes 0 2 [0x38, 0x7C, 0x7C, 0xFE, 0xFE, 0xFE, 0xFE, 0xFE, 0xFE, 0xFE, 0x7C, 0x7C, 0x38]) := by decide +kernel
/-- R145: `ELPSF 127, 63, 2, 1`. -/
theorem test_elpsf_corner : fbAfter (port [] [] 0x0B010201007F003F00000000#96) =
    some (bytes 7 125 [0x80, 0xC0, 0xC0]) := by decide +kernel
/-- R171: an illegal word does not clear the framebuffer. -/
theorem test_illegal : after (port (bytes 0 3 [0x55]) [] 0x010000000000000000000001#96) =
    some (bytes 0 3 [0x55], [⟨.illegal, 0x00⟩]) := by decide +kernel
/-- R151, R152, R153: the expansions of the examples, and the size of SYNC. -/
theorem test_expansions :
    (Pseudo.rect 1 1 4 3).expand = some [.line 1 1 4 1, .line 1 3 4 3, .line 1 1 1 3, .line 4 1 4 3] ∧
    (Pseudo.rectf 1 1 4 3).expand = some [.clra 1 1 4 3, .inva 1 1 4 3] ∧
    (Pseudo.tri 0 0 4 0 0 4).expand = some [.line 0 0 4 0, .line 4 0 0 4, .line 0 4 0 0] ∧
    (Pseudo.rect 32767 0 2 1).expand = none ∧ (Pseudo.synca 2 9 0 2).expand = some [] := by decide +kernel
/-- T5: `SYNCA 2, 9, 3, 2`. -/
theorem test_synca : (Pseudo.synca 2 9 3 2).expand = some [.rdb 1 2, .rdb 1 3, .rdb 1 4] := by decide +kernel

/-! ## Reset and the host's entry -/

theorem test_reset_memories : State.reset.MemoriesOk := by decide
theorem test_reset_idle : State.reset.busy = false ∧ State.reset.inputs = [] ∧ State.reset.responses = [] := by decide
/-- `withFetchWord` makes the very next step run the word. -/
theorem test_fetch_word : fbAfter (State.reset.withFetchWord 96 0x050000000005000A00000000) = some (bytes 1 5 [0x04]) := by
  decide +kernel

/-! ## Witnesses: every statement's hypotheses can be met together -/

/-- A state with something in both memories. -/
def demo : State := State.resetWith (bytes 0 0 [0xF0, 0x0F] ++ bytes 7 127 [0x81]) img

/-- The premise on states. It is all that ClrZeroesEveryByte, InvComplementsEveryByte, HorizontalAndVerticalLines,
SmallCircles, CircPlotsTheOctants and the like ask of a state; their pixel clauses have `inBounds` too (test_witness_primitives). -/
theorem test_witness_memories : demo.MemoriesOk := by decide +kernel

theorem test_witness_DecodeOfEncode :
    Instr.wf (.line (-32768) 32767 32767 (-32768)) = true ∧ Instr.wf (.elpsf 0 0 255 0) = true := by decide
theorem test_witness_EncodeOfDecode : decode 0x0A01FF007FFF800000000000#96 = .ok (.circf 32767 (-32768) 255) := by decide
/-- Opcodes at the ends of the illegal ranges; a reserved field; FL[7:1]; F without a fill flag; a word no row matches. -/
theorem test_witness_ReservedAndUnassignedWordsAreIllegal :
    opField 0x00FF00000000000000000000#96 = 0x00#8 ∧ 0x0C ≤ (opField 0x0C0000000000000000000000#96).toNat ∧
    0x0C ≤ (opField 0xFF0000000000000000000000#96).toNat ∧
    (∃ r ∈ opcodeTable, ∃ name ∈ r.format.reserved, opField 0x090000010000000000000000#96 = opField r.pattern ∧
      name.isZero 0x090000010000000000000000#96 = false) ∧
    flField 0x0A8000000000000000000000#96 >>> 1 ≠ 0#8 ∧
    (fillFlag 0x090100000000000000000000#96 = true ∧ opField 0x090100000000000000000000#96 ≠ 0x0A#8 ∧
      opField 0x090100000000000000000000#96 ≠ 0x0B#8) ∧
    (∀ r ∈ opcodeTable, r.selects 0x0C0000000000000000000000#96 = false) ∧
    decode 0x0C0000000000000000000000#96 = .error (.unassignedOpcode 0x0C) := by decide
theorem test_witness_StepRunsDecodedCommand :
    (port demo.fb img 0x060000000005000A00000000#96).busy = false ∧
    (port demo.fb img 0x060000000005000A00000000#96).inputs = .command 0x060000000005000A00000000#96 :: [] ∧
    decode 0x060000000005000A00000000#96 = .ok (.getp 5 10) := ⟨rfl, rfl, by decide⟩
theorem test_witness_IllegalWordOnlyAnswers :
    (port demo.fb img 0xFFFFFFFFFFFFFFFFFFFFFFFF#96).busy = false ∧
    (port demo.fb img 0xFFFFFFFFFFFFFFFFFFFFFFFF#96).inputs = .command 0xFFFFFFFFFFFFFFFFFFFFFFFF#96 :: [] ∧
    ∀ r ∈ opcodeTable, r.selects 0xFFFFFFFFFFFFFFFFFFFFFFFF#96 = false := ⟨rfl, rfl, by decide⟩
/-- A legal word with another behind it, an illegal word, and a port with nothing at it. -/
theorem test_witness_WordWaitsWhileBusy :
    (∃ s t : State, s.busy = false ∧ step s = .next t ∧ decode 0x06000000007F003F00000000#96 = .ok (.getp 127 63) ∧
      s.inputs = .command 0x06000000007F003F00000000#96 :: [.command 0x070000000000000000000000#96]) ∧
    (∃ s t : State, s.busy = false ∧ step s = .next t ∧ s.inputs = .command 0#96 :: []) ∧
    (∃ s t : State, s.busy = false ∧ step s = .next t ∧ s.inputs = []) :=
  ⟨⟨{ demo with inputs := [.command 0x06000000007F003F00000000#96, .command 0x070000000000000000000000#96] }, _, rfl, rfl,
      by decide, rfl⟩,
    ⟨port demo.fb img 0#96, _, rfl, rfl, rfl⟩, ⟨demo, _, rfl, rfl, rfl⟩⟩
/-- A word at the port of a block that is busy when the step begins (a state no run reaches, log entry 6) stays there. -/
theorem test_busy_block_takes_nothing :
    step { port demo.fb img 0x010000000000000000000000#96 with busy := true } =
      .next { port demo.fb img 0x010000000000000000000000#96 with busy := true } := rfl
theorem test_witness_ResetInputLeavesFreeFramebuffer :
    (∃ s : State, s.inputs = .reset (some 0x010000000000000000000000#96) :: [.command 0#96]) ∧
    (∃ s : State, s.inputs = .reset none :: []) ∧ byteInBounds 0 0 = true ∧ byteInBounds 7 127 = true :=
  ⟨⟨{ demo with inputs := [.reset (some 0x010000000000000000000000#96), .command 0#96] }, rfl⟩,
    ⟨{ demo with inputs := [.reset none] }, rfl⟩, by decide, by decide⟩
theorem test_witness_PlatformWriteChangesOneImageByte :
    ∃ s : State, s.MemoriesOk ∧ s.inputs = .imageWrite 0xFFFFFFFF#32 0x00#8 :: [] :=
  ⟨{ demo with inputs := [.imageWrite 0xFFFFFFFF#32 0x00#8] }, test_witness_memories, rfl⟩
theorem test_witness_InvariantAtReset :
    Memory.wf Config.fbSize demo.fb = true ∧ Memory.wf Config.imgSize img = true := test_witness_memories
/-- The step is a `SETP`; the state after it is the one `test_setp` shows. -/
theorem test_witness_StepKeepsInvariant : (port demo.fb img 0x050000000005000A00000000#96).Inv ∧
    ∃ t, step (port demo.fb img 0x050000000005000A00000000#96) = .next t :=
  ⟨⟨test_witness_memories, rfl⟩, _, rfl⟩
theorem test_witness_OnlyResetAndDrawingCommandsChangeFramebuffer :
    ∃ t, step (port demo.fb img 0x050000000005000A00000000#96) = .next t ∧
      t.fb ≠ (port demo.fb img 0x050000000005000A00000000#96).fb := ⟨_, rfl, by decide +kernel⟩
/-- A word taken, and a busy block that takes none. -/
theorem test_witness_OneResponsePerAcceptedWord :
    (∃ s t : State, step s = .next t ∧ ∃ w rest, s.busy = false ∧ s.inputs = .command w :: rest) ∧
    (∃ s t : State, step s = .next t ∧ s.busy = true ∧ s.inputs = [.command 0#96]) :=
  ⟨⟨port [] [] 0#96, _, rfl, 0#96, [], rfl, rfl⟩, ⟨{ port [] [] 0#96 with busy := true }, _, rfl, rfl, rfl⟩⟩
theorem test_witness_WordsAreAnsweredInOrder : ∃ s : State, s.busy = false ∧
    s.inputs = [0x030000000000000000000000#96, 0#96].map Input.command :=
  ⟨{ demo with inputs := [0x030000000000000000000000#96, 0#96].map Input.command }, rfl, rfl⟩
theorem test_witness_CommandFrame :
    drawingCommand (.setp 0 0) = true ∧ drawingCommand (.getp 0 0) = false ∧ drawingCommand (.rdb 0 0) = false := by decide
/-- A BLIT over one image space; another command over two different ones. -/
theorem test_witness_EffectDependsOnFramebufferAndImage :
    (demo.fb = demo.fb ∧ ((∃ x y w h src, Instr.blit 0 0 1 1 0 = .blit x y w h src) → demo.img = demo.img)) ∧
    (demo.fb = { demo with img := [] }.fb ∧
      ((∃ x y w h src, Instr.clr = .blit x y w h src) → demo.img = { demo with img := [] }.img)) :=
  ⟨⟨rfl, fun _ => rfl⟩, rfl, fun h => by obtain ⟨_, _, _, _, _, h⟩ := h; cases h⟩
theorem test_witness_PixelAddressIsBijection :
    inBounds 0 0 = true ∧ inBounds 127 63 = true ∧ (1023 < Config.fbSize ∧ 7 < 8) := by decide
/-- PlotSetsOneBit, UnplotClearsOneBit, ToggleInvertsOneBit, OrByteIsPlots: a canonical framebuffer, arguments at
the edges of the panel and just outside. -/
theorem test_witness_primitives : Memory.wf Config.fbSize demo.fb = true ∧
    inBounds 0 0 = true ∧ inBounds 127 63 = true ∧ inBounds 128 0 = false ∧ inBounds 0 (-1) = false ∧
    byteInBounds 7 127 = true ∧ byteInBounds 8 0 = false ∧ byteInBounds 0 (-1) = false := by decide +kernel
/-- ClraClearsTheRectangle, InvaTogglesTheRectangle, AreaCommandsByteForm: an empty rectangle, pixels just
inside and just outside one that leaves the panel. -/
theorem test_witness_area_commands : demo.MemoriesOk ∧ ((0 : Nat) = 0 ∨ (5 : Nat) = 0) ∧
    (inBounds 127 63 = true ∧ (126 : Int) ≤ 127 ∧ (127 : Int) ≤ 126 + 5 - 1 ∧ (62 : Int) ≤ 63 ∧ (63 : Int) ≤ 62 + 5 - 1) ∧
    (inBounds 125 63 = true ∧ ¬(126 : Int) ≤ 125) := by decide +kernel
theorem test_witness_SetpSetsOnePixel : demo.MemoriesOk ∧ byteInBounds 7 127 = true ∧
    ¬((0 : Int) ≤ 127 ∧ (127 : Int) ≤ 127 ∧ (0 : Int) ≤ 64 ∧ (64 : Int) ≤ 63) := by decide +kernel
theorem test_witness_RdbAnswersTheByte :
    ((7 : Nat) ≤ 7 ∧ (127 : Nat) ≤ 127) ∧ ¬((8 : Nat) ≤ 7 ∧ (0 : Nat) ≤ 127) ∧ ¬((0 : Nat) ≤ 7 ∧ (128 : Nat) ≤ 127) := by
  decide
theorem test_witness_SetOrClearThenGet : demo.MemoriesOk ∧ inBounds 127 63 = true ∧
    ((127 : Int) ≤ 127 ∧ (127 : Int) < 127 + (1 : Nat) ∧ (60 : Int) ≤ 63 ∧ (63 : Int) < 60 + (4 : Nat)) := by decide +kernel
/-- BLIT 0, 4, 2, 10: the last row of the rectangle, the first and last excess rows, the row after. -/
theorem test_witness_BlitPixelMeaning : demo.MemoriesOk ∧
    (inBounds 1 13 = true ∧ (13 : Int) ≤ 4 + (10 : Nat) - 1) ∧
    (inBounds 1 14 = true ∧ (4 : Int) + (10 : Nat) ≤ 14 ∧ (14 : Int) ≤ 4 + 8 * ((10 + 7) / 8 : Nat) - 1) ∧
    (inBounds 1 19 = true ∧ (19 : Int) ≤ 4 + 8 * ((10 + 7) / 8 : Nat) - 1) ∧
    (inBounds 1 20 = true ∧ ¬(20 : Int) ≤ 4 + 8 * ((10 + 7) / 8 : Nat) - 1) := by decide +kernel
theorem test_witness_BlitThenClearAndBlitTwice : demo.MemoriesOk ∧ inBounds 1 13 = true ∧
    ((0 : Int) ≤ 1 ∧ (1 : Int) < 0 + (2 : Nat) ∧ (4 : Int) ≤ 13 ∧ (13 : Int) < 4 + (10 : Nat)) := by decide +kernel
/-- Two image spaces that differ at 0x1000 only, and a bitmap at 0x2000. -/
theorem test_witness_BlitReadsOnlyItsBitmap :
    demo.fb = { demo with img := Memory.write img 0x1000 0 }.fb ∧ demo.img ≠ Memory.write img 0x1000 0 ∧
    ∀ j : Nat, j < (10 + 7) / 8 → ∀ i : Nat, i < 2 → (0 : Int) ≤ -1 + (i : Int) → (-1 : Int) + (i : Int) ≤ 127 →
      imgRead demo.img ((0x2000 + j * 2 + i) % 2 ^ 32) =
        imgRead (Memory.write img 0x1000 0) ((0x2000 + j * 2 + i) % 2 ^ 32) := by decide +kernel
/-- A byte with no pixel of the line, and one with. -/
theorem test_witness_LinePlotsItsPixels : demo.MemoriesOk ∧ inBounds 7 3 = true ∧ (7, 3) ∈ linePixels 0 0 7 3 ∧
    byteInBounds 1 0 = true ∧ ∀ k : Nat, k < 8 → ((0 : Int), 8 * (1 : Int) + (k : Int)) ∉ linePixels 0 0 7 3 := by
  decide +kernel
/-- The four slanted octants run toward +x, a tie among them. -/
theorem test_witness_SlantedLineClosedForm :
    ((0 : Int) < 4 ∧ (0 : Int) ≠ 2 ∧ (1, 1) ∈ linePixels 0 0 4 2) ∧
    ((0 : Int) < 4 ∧ (2 : Int) ≠ 0 ∧ (1, 1) ∈ linePixels 0 2 4 0) ∧
    ((0 : Int) < 2 ∧ (0 : Int) ≠ 4 ∧ (1, 1) ∈ linePixels 0 0 2 4) ∧
    ((0 : Int) < 3 ∧ (7 : Int) ≠ 0 ∧ (3, 0) ∈ linePixels 0 7 3 0) := by decide +kernel
theorem test_witness_LineDecisionVariableInRange :
    Instr.wf (.line 0 2 4 0) = true ∧ (0 : Int) ≠ 4 ∧ (2 : Int) ≠ 0 ∧ ⟨0, -2, 0⟩ ∈ lineRun (lineNormalize 0 2 4 0) := by
  decide +kernel
theorem test_witness_OctantDecisionIdentity : ⟨3, 3, 6⟩ ∈ oct 4 := by decide +kernel
/-- CircPlotsTheOctants, CircfPlotsOctantsAndSpans: a byte with no point of the circle of radius 3 about the corner, outline and filled. -/
theorem test_witness_circles : demo.MemoriesOk ∧ inBounds 3 0 = true ∧ byteInBounds 7 127 = true ∧
    ∀ q ∈ oct 3, ∀ k : Nat, k < 8 → ((127 : Int), 8 * (7 : Int) + (k : Int)) ∉
      mirror8 0 0 q.x q.y ++ spanPoints (0 - q.x) (0 + q.x) (0 + q.y) ++ spanPoints (0 - q.x) (0 + q.x) (0 - q.y) ++
        spanPoints (0 - q.y) (0 + q.y) (0 + q.x) ++ spanPoints (0 - q.y) (0 + q.y) (0 - q.x) := by decide +kernel
/-- ElpsPlotsTheWalk, ElpsfPlotsWalkAndSpans, DegenerateEllipses: a byte with no point of the ellipse, outline and
filled. -/
theorem test_witness_ellipses : demo.MemoriesOk ∧ inBounds 8 4 = true ∧ byteInBounds 7 127 = true ∧
    ∀ q ∈ ellWalk 6 3, ∀ k : Nat, k < 8 → ((127 : Int), 8 * (7 : Int) + (k : Int)) ∉
      mirror4 8 4 q.1 q.2 ++ spanPoints (8 - q.1) (8 + q.1) (4 + q.2) ++ spanPoints (8 - q.1) (8 + q.1) (4 - q.2) := by
  decide +kernel
/-- A pixel the outline sets. -/
theorem test_witness_OutlineInsideFilled : demo.MemoriesOk ∧
    (∃ t, exec (.circ 0 0 3) demo = .next t ∧ t.pixel 0 3 = true) ∧
    (∃ t, exec (.elps 8 4 6 3) demo = .next t ∧ t.pixel 2 4 = true) :=
  ⟨test_witness_memories, ⟨_, rfl, by decide +kernel⟩, ⟨_, rfl, by decide +kernel⟩⟩
theorem test_witness_RasterizersOnlySetPixels : demo.pixel 0 7 = true ∧ demo.pixel 127 56 = true ∧ demo.pixel 127 63 = true := by
  decide +kernel
theorem test_witness_RectfSetsTheRectangle : demo.MemoriesOk ∧ (Pseudo.rectf (-32768) 32767 255 255).operandsOk = true ∧
    (Pseudo.rectf 0 0 0 3).operandsOk = true := by decide +kernel
theorem test_witness_RectSetsTheEdges : demo.MemoriesOk ∧ (Pseudo.rect (-2) 60 5 255).accepted = true ∧
    (Pseudo.rect 32767 0 0 1).accepted = true := by decide +kernel
theorem test_witness_SyncaReadsTheTouchedBytes : (Pseudo.synca (-2) 60 5 255).accepted = true ∧
    (Pseudo.synca 0 0 128 64).accepted = true ∧ (Pseudo.synca 5 (-1) 1 1).accepted = true := by decide +kernel

end Sys2Proof.Tests
end

section
/-! What a command's effect depends on (00_scope.md R12, 10_state.md R21): the settling of O19. -/

namespace Sys2Proof.Machine

/-- Two states that agree on the framebuffer, and on the image space when the command is BLIT, get the same new
framebuffer and the same response; each keeps the rest of its own state. The image space enters in the BLIT case only
(41_blit.md R118 (e)). -/
theorem exec_eq_of_same_fb (i : Instr) {s s' : State} (hfb : s.fb = s'.fb)
    (himg : (∃ x y w h src, i = .blit x y w h src) → s.img = s'.img) : ∃ fb data,
    exec i s = .next (State.respond { s with fb := fb } .ok data) ∧
    exec i s' = .next (State.respond { s' with fb := fb } .ok data) := by
  cases i with
  | blit x y w h src =>
    have himg : s.img = s'.img := himg ⟨x, y, w, h, src, rfl⟩
    exact ⟨_, _, rfl, by rw [hfb, himg]; rfl⟩
  | getp x y => exact ⟨s.fb, _, rfl, by rw [hfb]; rfl⟩
  | rdb page col => exact ⟨s.fb, _, rfl, by rw [hfb]; rfl⟩
  | _ => exact ⟨_, _, rfl, by rw [hfb]; rfl⟩

/-- Settles O19: both runs end in `State.respond` with one framebuffer and one response. -/
theorem effectDependsOnFramebufferAndImage : Obligations.EffectDependsOnFramebufferAndImage := by
  intro i s s' hfb himg
  obtain ⟨fb, data, hs, hs'⟩ := exec_eq_of_same_fb i hfb himg
  exact ⟨_, _, ⟨.ok, data⟩, hs, hs', rfl, rfl, rfl⟩

end Sys2Proof.Machine
end

section
/-! What a step that answers a next state did, case by case, and what a command it ran leaves: the rules the statements
about the step are settled from. -/

namespace Sys2Proof.Machine

/-! ## The frame of a command -/

section Command
variable {i : Instr} {s t : State}

/-- A command delivers one response of status OK, ends idle, and leaves the image space and the inputs (30_encoding.md
R64, 10_state.md R33, R34). -/
theorem frame_of_exec (h : exec i s = .next t) : t.busy = false ∧ t.inputs = s.inputs ∧ t.img = s.img ∧
    ∃ data, t.responses = s.responses ++ [⟨.ok, data⟩] := by
  obtain ⟨fb, data, hs, -⟩ := exec_shape i s
  cases hs.symm.trans h
  exact ⟨rfl, rfl, rfl, data, rfl⟩

/-- A command keeps both memories canonical: the framebuffer by its own writes, the image space because it has none. -/
theorem memoriesOk_of_exec (h : exec i s = .next t) (hs : s.MemoriesOk) : t.MemoriesOk := by
  obtain ⟨fb, data, hnext, hwf⟩ := exec_shape i s
  cases hnext.symm.trans h
  obtain ⟨hfb, himg⟩ := hs
  exact ⟨hwf hfb, himg⟩

/-- A reading command leaves the framebuffer (30_encoding.md R74). -/
theorem fb_of_exec_reading (h : exec i s = .next t) (hi : drawingCommand i = false) : t.fb = s.fb := by
  cases i with
  | getp x y => cases h; rfl
  | rdb page col => cases h; rfl
  | _ => cases hi

end Command

/-! ## The next states of a step -/

/-- The next states that a step can answer, one constructor per way. -/
inductive StepsTo (s : State) : State → Prop
  | nothingPresented (hin : s.inputs = []) : StepsTo s s
  | reset {f rest} (hin : s.inputs = .reset f :: rest) : StepsTo s (s.takeReset rest)
  | imageWrite {a b rest} (hin : s.inputs = .imageWrite a b :: rest) : StepsTo s (s.takeImageWrite a b rest)
  | wordWaits {w rest} (hin : s.inputs = .command w :: rest) (hbusy : s.busy = true) : StepsTo s s
  | legalWord {w rest i t} (hin : s.inputs = .command w :: rest) (hidle : s.busy = false) (hdec : decode w = .ok i)
      (hexec : exec i (s.accept rest) = .next t) : StepsTo s t
  | illegalWord {w rest e} (hin : s.inputs = .command w :: rest) (hidle : s.busy = false) (hdec : decode w = .error e) :
      StepsTo s (s.accept rest).raiseIllegal

theorem stepsTo_of_step {s t : State} (h : step s = .next t) : StepsTo s t := by
  rcases step_cases s with ⟨hin, hs⟩ | ⟨f, rest, hin, hs⟩ | ⟨a, b, rest, hin, hs⟩ | ⟨w, rest, hin, hb, hs⟩ |
    ⟨w, rest, i, hin, hb, hd, hs⟩ | ⟨w, rest, e, hin, hb, hd, hs⟩
  · cases hs.symm.trans h; exact .nothingPresented hin
  · cases hs.symm.trans h; exact .reset hin
  · cases hs.symm.trans h; exact .imageWrite hin
  · cases hs.symm.trans h; exact .wordWaits hin hb
  · exact .legalWord hin hb hd (hs.symm.trans h)
  · cases hs.symm.trans h; exact .illegalWord hin hb hd

/-! ## The step of a given input -/

section Inputs
variable {s : State} {rest : List Input}

theorem step_imageWrite {a : ImgAddr} {b : Byte} (hin : s.inputs = .imageWrite a b :: rest) :
    step s = .next (s.takeImageWrite a b rest) := by
  simp [step, hin]

theorem step_legalWord {w : CmdWord} {i : Instr} (hidle : s.busy = false) (hin : s.inputs = .command w :: rest)
    (hdec : decode w = .ok i) : step s = exec i (s.accept rest) := by
  simp [step, State.fetch, hidle, hin, hdec]

theorem step_illegalWord {w : CmdWord} {e : DecodeError} (hidle : s.busy = false)
    (hin : s.inputs = .command w :: rest) (hdec : decode w = .error e) :
    step s = .next (s.accept rest).raiseIllegal := by
  simp [step, State.fetch, hidle, hin, hdec]

end Inputs

end Sys2Proof.Machine
end

section
/-! The invariant: at reset (O13) and kept by every step (O14). -/

namespace Sys2Proof.Machine

/-- Settles O13: the empty memories are canonical, and reset leaves the block idle with empty ports. -/
theorem invariantAtReset : Obligations.InvariantAtReset :=
  ⟨⟨⟨Memory.wf_nil _, Memory.wf_nil _⟩, rfl⟩, fun _ _ hfb himg => ⟨⟨⟨hfb, himg⟩, rfl⟩, rfl, rfl⟩⟩

/-- Settles O14, case by case of the step: a reset tabulates the framebuffer, a platform write stays below 2^32, and a
command keeps both memories and ends idle. -/
theorem stepKeepsInvariant : Obligations.StepKeepsInvariant := by
  intro s t hs h
  obtain ⟨⟨hfb, himg⟩, hidle⟩ := hs
  cases stepsTo_of_step h with
  | nothingPresented _ => exact ⟨⟨hfb, himg⟩, hidle⟩
  | reset _ => exact ⟨⟨Memory.wf_tabulate _ le_rfl, himg⟩, rfl⟩
  | imageWrite _ => exact ⟨⟨hfb, Memory.wf_write himg (BitVec.isLt _) _⟩, hidle⟩
  | wordWaits _ _ => exact ⟨⟨hfb, himg⟩, hidle⟩
  | legalWord _ _ _ hexec => exact ⟨memoriesOk_of_exec hexec ⟨hfb, himg⟩, (frame_of_exec hexec).1⟩
  | illegalWord _ _ _ => exact ⟨⟨hfb, himg⟩, rfl⟩

end Sys2Proof.Machine
end

section
/-! What one step takes and changes: the settling of O7, O9, O11 and O15. -/

namespace Sys2Proof.Machine

/-- Settles O7: the state with the word taken and busy set is `State.accept`. -/
theorem stepRunsDecodedCommand : Obligations.StepRunsDecodedCommand :=
  fun _ _ _ _ hidle hin hdec => step_legalWord hidle hin hdec

/-- Settles O11: `State.takeImageWrite` is the next state, and `Memory.read_write` says what its image space reads as. -/
theorem platformWriteChangesOneImageByte : Obligations.PlatformWriteChangesOneImageByte := by
  intro s a b rest hs hin
  exact ⟨_, step_imageWrite hin, rfl, rfl, rfl, rfl, rfl, fun n => Memory.read_write hs.2 a.toNat n b⟩

/-- Settles O15: of the ways a step can go, only a reset and a command write the framebuffer, and a command that is not
a drawing one leaves it. -/
theorem onlyResetAndDrawingCommandsChangeFramebuffer : Obligations.OnlyResetAndDrawingCommandsChangeFramebuffer := by
  intro s t h hne
  cases stepsTo_of_step h with
  | reset hin => exact .inl ⟨_, _, hin⟩
  | legalWord hin hidle hdec hexec =>
    refine .inr ⟨_, _, _, hidle, hin, hdec, ?_⟩
    by_contra hread
    have hfb := fb_of_exec_reading hexec (Bool.eq_false_of_not_eq_true hread)
    exact hne hfb
  | nothingPresented _ => exact absurd rfl hne
  | imageWrite _ => exact absurd rfl hne
  | wordWaits _ _ => exact absurd rfl hne
  | illegalWord _ _ _ => exact absurd rfl hne

/-- Settles O9: the busy state between acceptance and response is `State.accept`, whose inputs are the words behind. -/
theorem wordWaitsWhileBusy : Obligations.WordWaitsWhileBusy := by
  intro s t hs h
  cases stepsTo_of_step h with
  | nothingPresented hin => simp [hs, hin]
  | reset hin => simp [hin]
  | imageWrite hin => simp [hs, hin]
  | wordWaits _ hbusy => simp [hs] at hbusy
  | @legalWord w rest i _ hin _ hdec hexec =>
    obtain ⟨hidle, hinputs, -, data, hresp⟩ := frame_of_exec hexec
    refine ⟨hidle, by simp [hin], ?_, ?_⟩
    · intro first rest' hin'
      cases hin.symm.trans hin'
      exact hinputs
    · intro w' rest' hin'
      cases hin.symm.trans hin'
      refine ⟨⟨_, hresp⟩, fun i' hdec' => ?_⟩
      cases hdec.symm.trans hdec'
      exact ⟨s.accept rest, rfl, rfl, rfl, rfl, rfl, hexec⟩
  | illegalWord hin _ hdec => simp [hin, hdec]

end Sys2Proof.Machine
end

section
/-! Runs of the idle block over a list of words: the settling of O17. -/

namespace Sys2Proof.Machine

/-- The first of `k + 1` steps is `step`, and the rest run from where it leads. -/
theorem core_run_succ {s t : State} (h : step s = .next t) (k : Nat) : core.run (k + 1) s = core.run k t := by
  simp only [Host.Core.run]
  rw [show core.step s = .next t from h]

/-- The idle block takes a word in one step and answers it once, ILLEGAL exactly when it does not decode (30_encoding.md
R64, 60_exceptions.md R171, R184). -/
theorem step_answers_word {s : State} {w : CmdWord} {rest : List Input} (hidle : s.busy = false)
    (hin : s.inputs = .command w :: rest) : ∃ t r, step s = .next t ∧ t.busy = false ∧ t.inputs = rest ∧
      t.responses = s.responses ++ [r] ∧
      (∀ i, decode w = .ok i → r.status = .ok) ∧ (∀ e, decode w = .error e → r.status = .illegal) := by
  cases hdec : decode w with
  | ok i =>
    obtain ⟨fb, data, hexec, -⟩ := exec_shape i (s.accept rest)
    exact ⟨_, ⟨.ok, data⟩, (step_legalWord hidle hin hdec).trans hexec, rfl, rfl, rfl, fun _ _ => rfl, nofun⟩
  | error e => exact ⟨_, ⟨.illegal, 0#8⟩, step_illegalWord hidle hin hdec, rfl, rfl, rfl, nofun, fun _ _ => rfl⟩

/-- Settles O17, by induction on the words: the first step answers the first word and leaves the block idle with the
others at the port. -/
theorem wordsAreAnsweredInOrder : Obligations.WordsAreAnsweredInOrder := by
  intro ws
  induction ws with
  | nil => exact fun s hidle hin => ⟨s, [], rfl, hin, hidle, by simp, rfl⟩
  | cons w ws ih =>
    intro s hidle hin
    obtain ⟨t, r, hstep, htidle, htin, htresp, hok, hillegal⟩ := step_answers_word hidle hin
    obtain ⟨u, rs, hrun, huin, huidle, huresp, hrs⟩ := ih t htidle htin
    refine ⟨u, r :: rs, (core_run_succ hstep ws.length).trans hrun, huin, huidle, ?_, ?_⟩
    · simp [huresp, htresp]
    · cases hdec : decode w with
      | ok i => simp [hdec, hok i hdec, hrs]
      | error e => simp [hdec, hillegal e hdec, hrs]

end Sys2Proof.Machine
end

section
/-! Pixels of the panel and bits of the framebuffer: the settling of O20. -/

namespace Sys2Proof.Machine

/-- Column and row of bit `k` of the byte at address `a`, with page `a / 128` (10_state.md R23). -/
theorem exists_pixel_of_bit {a k : Nat} (ha : a < Config.fbSize) (hk : k < 8) :
    ∃ x y : Int, inBounds x y = true ∧ cellOf (pageOf y) x = a ∧ bitOf y = k := by
  unfold Config.fbSize at ha
  refine ⟨(a % 128 : Nat), 8 * (a / 128 : Nat) + k, ?_, ?_, ?_⟩
  · rw [inBounds_iff]; omega
  · unfold cellOf pageOf; omega
  · unfold bitOf; omega

/-- A row is its page and its bit (20_memory.md R42). -/
theorem row_eq_page_bit (y : Int) : y = 8 * pageOf y + bitOf y := by
  unfold pageOf bitOf; omega

/-- Settles O20: one to one by `cellOf_inj` and `row_eq_iff`, onto by `exists_pixel_of_bit`. -/
theorem pixelAddressIsBijection : Obligations.PixelAddressIsBijection := by
  refine ⟨?_, fun a k ha hk => exists_pixel_of_bit ha hk, ?_⟩
  · intro x y x' y' h h' hcell hbit
    obtain ⟨hpage, hcol⟩ := (cellOf_inj (byteInBounds_of_inBounds h) (byteInBounds_of_inBounds h')).1 hcell
    exact ⟨hcol, row_eq_iff.1 ⟨hpage, hbit⟩⟩
  · intro x y h
    obtain ⟨hp0, hp7, -, -⟩ := byteInBounds_iff.1 (byteInBounds_of_inBounds h)
    exact ⟨hp0, hp7, Nat.le_of_lt_succ (bitOf_lt y), row_eq_page_bit y⟩

end Sys2Proof.Machine
end

section
/-! The one-pixel writes `Plot`, `Unplot`, `Toggle` and the byte merge `OrByte` (20_memory.md R43 to R47): the settling
of O21 to O24. -/

namespace Sys2Proof.Machine

/-! ## One byte rewritten -/

/-- A byte replaced by a function of its old value: that byte is the function's, every other byte is as before. -/
theorem fbRead_update {fb : Memory} (hw : Memory.wf Config.fbSize fb = true) (f : Byte → Byte) {p c p' c' : Int}
    (h : byteInBounds p c = true) (h' : byteInBounds p' c' = true) :
    fbRead (fbWrite fb p c (f (fbRead fb p c))) p' c' =
      if p' = p ∧ c' = c then f (fbRead fb p' c') else fbRead fb p' c' := by
  rw [fbRead_fbWrite hw h h']
  by_cases he : p' = p ∧ c' = c
  · obtain ⟨rfl, rfl⟩ := he; rfl
  · rw [if_neg he, if_neg he]

/-! ## What the three one-pixel writes share -/

/-- `op` keeps the canonical form, and combines each pixel's value by `g` with whether it is the pixel named. -/
structure PixelOp (op : Memory → Int → Int → Memory) (g : Bool → Bool → Bool) : Prop where
  wf : ∀ {fb : Memory}, Memory.wf Config.fbSize fb = true → ∀ x y, Memory.wf Config.fbSize (op fb x y) = true
  pixel : ∀ {fb : Memory}, Memory.wf Config.fbSize fb = true → ∀ x y {a b : Int}, inBounds a b = true →
    testPixel (op fb x y) a b = g (testPixel fb a b) (decide (a = x ∧ b = y))

section PixelOp
variable {op : Memory → Int → Int → Memory} {g : Bool → Bool → Bool} {fb : Memory}

theorem PixelOp.comm (h : PixelOp op g) (hw : Memory.wf Config.fbSize fb = true)
    (hg : ∀ v m m', g (g v m) m' = g (g v m') m) (x y x' y' : Int) :
    op (op fb x y) x' y' = op (op fb x' y') x y := by
  refine fb_eq_of_pixels (h.wf (h.wf hw x y) x' y') (h.wf (h.wf hw x' y') x y) (fun a b hab => ?_)
  rw [h.pixel (h.wf hw x y) x' y' hab, h.pixel hw x y hab, hg, ← h.pixel hw x' y' hab,
    ← h.pixel (h.wf hw x' y') x y hab]

theorem PixelOp.idempotent (h : PixelOp op g) (hw : Memory.wf Config.fbSize fb = true)
    (hg : ∀ v m, g (g v m) m = g v m) (x y : Int) : op (op fb x y) x y = op fb x y := by
  refine fb_eq_of_pixels (h.wf (h.wf hw x y) x y) (h.wf hw x y) (fun a b hab => ?_)
  rw [h.pixel (h.wf hw x y) x y hab, h.pixel hw x y hab, hg]

theorem PixelOp.involutive (h : PixelOp op g) (hw : Memory.wf Config.fbSize fb = true)
    (hg : ∀ v m, g (g v m) m = v) (x y : Int) : op (op fb x y) x y = fb := by
  refine fb_eq_of_pixels (h.wf (h.wf hw x y) x y) hw (fun a b hab => ?_)
  rw [h.pixel (h.wf hw x y) x y hab, h.pixel hw x y hab, hg]

end PixelOp

theorem pixelOp_plot : PixelOp plot (fun v m => v || m) := ⟨wf_plot, testPixel_plot⟩

theorem pixelOp_unplot : PixelOp unplot (fun v m => v && !m) := ⟨wf_unplot, testPixel_unplot⟩

theorem pixelOp_toggle : PixelOp toggle (fun v m => v ^^ m) := ⟨wf_toggle, testPixel_toggle⟩

/-- Settles O21: the byte form is `fbRead_update` with the OR, and OR is idempotent and commutes pixel by pixel. -/
theorem plotSetsOneBit : Obligations.PlotSetsOneBit := by
  refine fun fb hw x y => ⟨fun h => by simp [plot, h], fun h p c hpc => ?_,
    pixelOp_plot.idempotent hw (by decide) x y, fun x' y' => pixelOp_plot.comm hw (by decide) x y x' y'⟩
  rw [plot, if_pos h]
  exact fbRead_update hw (· ||| maskOf y) (byteInBounds_of_inBounds h) hpc

/-- Settles O22: the byte form is `fbRead_update` with the AND of the complement, which is idempotent and commutes
pixel by pixel. -/
theorem unplotClearsOneBit : Obligations.UnplotClearsOneBit := by
  refine fun fb hw x y => ⟨fun h => by simp [unplot, h], fun h p c hpc => ?_,
    pixelOp_unplot.idempotent hw (by decide) x y, fun x' y' => pixelOp_unplot.comm hw (by decide) x y x' y'⟩
  rw [unplot, if_pos h]
  exact fbRead_update hw (· &&& ~~~maskOf y) (byteInBounds_of_inBounds h) hpc

/-- Settles O23: the byte form is `fbRead_update` with the XOR, and XOR undoes itself and commutes pixel by pixel. -/
theorem toggleInvertsOneBit : Obligations.ToggleInvertsOneBit := by
  refine fun fb hw x y => ⟨fun h => by simp [toggle, h], fun h p c hpc => ?_,
    pixelOp_toggle.involutive hw (by decide) x y, fun x' y' => pixelOp_toggle.comm hw (by decide) x y x' y'⟩
  rw [toggle, if_pos h]
  exact fbRead_update hw (· ^^^ maskOf y) (byteInBounds_of_inBounds h) hpc

/-! ## A byte as eight pixels -/

/-- The pixels (c, 8 p + k) of the set bits `k` of a value, on the panel or off it. -/
theorem mem_setBitPoints {p c a b : Int} {v : Byte} :
    (a, b) ∈ ((List.range 8).filter (fun k => v.getLsbD k)).map (fun k : Nat => (c, 8 * p + (k : Int))) ↔
      (pageOf b = p ∧ a = c) ∧ v.getLsbD (bitOf b) = true := by
  simp only [List.mem_map, List.mem_filter, List.mem_range, Prod.mk.injEq]
  constructor
  · rintro ⟨k, ⟨hk, hv⟩, rfl, rfl⟩
    have hp : pageOf (8 * p + k) = p := by unfold pageOf; omega
    have hb : bitOf (8 * p + k) = k := by unfold bitOf; omega
    exact ⟨⟨hp, rfl⟩, by rwa [hb]⟩
  · rintro ⟨⟨rfl, rfl⟩, hv⟩
    exact ⟨bitOf b, ⟨bitOf_lt b, hv⟩, rfl, (row_eq_page_bit b).symm⟩

/-- Settles O24: the byte form is `fbRead_fbWrite`; merging the byte and plotting its set bits give the same
pixels, and canonical framebuffers with the same pixels are equal. -/
theorem orByteIsPlots : Obligations.OrByteIsPlots := by
  refine fun fb hw p c v => ⟨fun h => by simp [orByte, h], fun h p' c' h' => ?_, ?_⟩
  · rw [orByte, if_pos h]
    exact fbRead_fbWrite hw h h' _
  · refine fb_eq_of_pixels (wf_orByte hw p c v) (wf_plotAll hw _) (fun a b hab => ?_)
    rw [testPixel_orByte hw p c v hab, testPixel_plotAll hw _ hab]
    simp only [mem_setBitPoints, Bool.decide_and, Bool.decide_eq_true]

end Sys2Proof.Machine
end

section
/-! The ranges of a slanted line's running points (20_memory.md R52, 42_line.md R122): the settling of O43. -/

namespace Sys2Proof.Machine

/-! ## The ends of a line through the three transforms -/

/-- The ends and their differences are in the ranges of 20_memory.md R52: coordinates in -32768 to 32768, `dx` and `dy`
at most 65535 in size. -/
structure LineSetup.InRange (l : LineSetup) : Prop where
  x0 : -32768 ≤ l.x0 ∧ l.x0 ≤ 32768
  y0 : -32768 ≤ l.y0 ∧ l.y0 ≤ 32768
  x1 : -32768 ≤ l.x1 ∧ l.x1 ≤ 32768
  y1 : -32768 ≤ l.y1 ∧ l.y1 ≤ 32768
  dx : -65535 ≤ l.x1 - l.x0 ∧ l.x1 - l.x0 ≤ 65535
  dy : -65535 ≤ l.y1 - l.y0 ∧ l.y1 - l.y0 ≤ 65535

/-- The line runs toward +x and not toward -y, with slope at most 1: what the recurrence runs on (42_line.md R122). -/
structure LineSetup.FirstOctant (l : LineSetup) : Prop where
  dx_pos : 0 < l.x1 - l.x0
  dy_nonneg : 0 ≤ l.y1 - l.y0
  slope : l.y1 - l.y0 ≤ l.x1 - l.x0

theorem inRange_lineExchange {l : LineSetup} (h : l.InRange) : (lineExchange l).InRange := by
  obtain ⟨hx0, hy0, hx1, hy1, hdx, hdy⟩ := h
  unfold lineExchange
  split
  · exact ⟨hx1, hy1, hx0, hy0, by dsimp only; omega, by dsimp only; omega⟩
  · exact ⟨hx0, hy0, hx1, hy1, hdx, hdy⟩

theorem inRange_lineReflect {l : LineSetup} (h : l.InRange) : (lineReflect l).InRange := by
  obtain ⟨hx0, hy0, hx1, hy1, hdx, hdy⟩ := h
  unfold lineReflect
  split
  · exact ⟨hx0, by dsimp only; omega, hx1, by dsimp only; omega, hdx, by dsimp only; omega⟩
  · exact ⟨hx0, hy0, hx1, hy1, hdx, hdy⟩

theorem inRange_lineSwap {l : LineSetup} (h : l.InRange) : (lineSwap l).InRange := by
  obtain ⟨hx0, hy0, hx1, hy1, hdx, hdy⟩ := h
  unfold lineSwap
  split
  · exact ⟨hy0, hx0, hy1, hx1, hdy, hdx⟩
  · exact ⟨hx0, hy0, hx1, hy1, hdx, hdy⟩

/-- The operands of a word are in the ranges, and each transform keeps them. -/
theorem inRange_lineNormalize {x0 y0 x1 y1 : Int} (h : (Instr.line x0 y0 x1 y1).wf = true) :
    (lineNormalize x0 y0 x1 y1).InRange := by
  have hstart : LineSetup.InRange ⟨x0, y0, x1, y1, false, false⟩ := by
    simp only [Instr.wf, coordOk, Bool.and_eq_true, decide_eq_true_eq] at h
    constructor <;> dsimp only <;> omega
  exact inRange_lineSwap (inRange_lineReflect (inRange_lineExchange hstart))

theorem lineExchange_runs_right {l : LineSetup} (h : l.x0 ≠ l.x1) : (lineExchange l).x0 < (lineExchange l).x1 := by
  unfold lineExchange
  split
  · assumption
  · omega

theorem lineReflect_runs_up (l : LineSetup) : (lineReflect l).y0 ≤ (lineReflect l).y1 := by
  unfold lineReflect
  split
  · dsimp only; omega
  · omega

theorem lineReflect_x (l : LineSetup) : (lineReflect l).x0 = l.x0 ∧ (lineReflect l).x1 = l.x1 := by
  unfold lineReflect
  split <;> exact ⟨rfl, rfl⟩

theorem firstOctant_lineSwap {l : LineSetup} (hx : l.x0 < l.x1) (hy : l.y0 ≤ l.y1) : (lineSwap l).FirstOctant := by
  unfold lineSwap
  split
  · constructor <;> dsimp only <;> omega
  · constructor <;> omega

/-- The three transforms take a line that is not vertical to the first octant (42_line.md R122). -/
theorem firstOctant_lineNormalize {x0 x1 : Int} (y0 y1 : Int) (h : x0 ≠ x1) :
    (lineNormalize x0 y0 x1 y1).FirstOctant := by
  refine firstOctant_lineSwap ?_ (lineReflect_runs_up _)
  obtain ⟨hx0, hx1⟩ := lineReflect_x (lineExchange ⟨x0, y0, x1, y1, false, false⟩)
  rw [hx0, hx1]
  exact lineExchange_runs_right h

/-! ## The running points between the ends -/

/-- The `k`-th point of the closed form lies in the box of the two ends, and its decision variable between
`2 (dy - dx)` and `2 dy`: it is `2 (dy - dx)` plus the remainder of the rounding. -/
theorem lineAt_range (X Y : Int) {dx dy : Int} (h0 : 0 ≤ dy) (h2 : 0 < dx) {k : Nat} (hk : (k : Int) ≤ dx) :
    (X ≤ (lineAt X Y dx dy k).x ∧ (lineAt X Y dx dy k).x ≤ X + dx) ∧
    (Y ≤ (lineAt X Y dx dy k).y ∧ (lineAt X Y dx dy k).y ≤ Y + dy) ∧
    2 * (dy - dx) ≤ (lineAt X Y dx dy k).d ∧ (lineAt X Y dx dy k).d < 2 * dy := by
  have hdiv := Int.mul_ediv_add_emod (2 * k * dy + dx) (2 * dx)
  have hrem := Int.emod_nonneg (2 * k * dy + dx) (show 2 * dx ≠ 0 by omega)
  have hrem' := Int.emod_lt_of_pos (2 * k * dy + dx) (show 0 < 2 * dx by omega)
  have hkdy : 0 ≤ (k : Int) * dy := by positivity
  have hkdy' : (k : Int) * dy ≤ dx * dy := Int.mul_le_mul_of_nonneg_right hk h0
  have hm : 0 ≤ (2 * k * dy + dx) / (2 * dx) := Int.ediv_nonneg (by linarith) (by omega)
  have hm' : (2 * k * dy + dx) / (2 * dx) < dy + 1 := Int.ediv_lt_of_lt_mul (by omega) (by linarith)
  refine ⟨⟨?_, ?_⟩, ⟨?_, ?_⟩, ?_, ?_⟩ <;> dsimp only [lineAt] <;> linarith

/-- Every running point of a first-octant line is a point of the closed form, `dx` steps from the start at most. -/
theorem exists_lineAt_of_mem_lineRun {l : LineSetup} (h : l.FirstOctant) {q : LinePoint} (hq : q ∈ lineRun l) :
    ∃ k : Nat, (k : Int) ≤ l.x1 - l.x0 ∧ q = lineAt l.x0 l.y0 (l.x1 - l.x0) (l.y1 - l.y0) k := by
  obtain ⟨hdx, hdy, hslope⟩ := h
  rw [lineRun, ← lineAt_zero l.x0 l.y0 hdx, lineFrom_lineAt l.x0 l.y0 hdy hslope hdx] at hq
  obtain ⟨k, hk, rfl⟩ := List.mem_map.1 hq
  rw [List.mem_range] at hk
  exact ⟨k, by omega, by rw [Nat.zero_add]⟩

/-- Settles O43: the ends stay in range through the transforms, and the running points stay between them. -/
theorem lineDecisionVariableInRange : Obligations.LineDecisionVariableInRange := by
  intro x0 y0 x1 y1 hwf hx _ q hq
  have hoct := firstOctant_lineNormalize y0 y1 hx
  obtain ⟨hx0, hy0, hx1, hy1, hdx, hdy⟩ := inRange_lineNormalize hwf
  obtain ⟨k, hk, rfl⟩ := exists_lineAt_of_mem_lineRun hoct hq
  obtain ⟨⟨hxl, hxr⟩, ⟨hyl, hyr⟩, hdl, hdr⟩ :=
    lineAt_range (lineNormalize x0 y0 x1 y1).x0 (lineNormalize x0 y0 x1 y1).y0 hoct.dy_nonneg hoct.dx_pos hk
  have hdy0 := hoct.dy_nonneg
  refine ⟨?_, ?_, ?_, ?_, ?_, ?_⟩ <;> omega

end Sys2Proof.Machine
end

section
/-! SETP and the rasterizers only plot, and plotting clears no pixel: the settling of O56. -/

namespace Sys2Proof.Machine

/-- A pixel off the panel reads as 0 (20_memory.md R46). -/
theorem inBounds_of_testPixel {fb : Memory} {a b : Int} (h : testPixel fb a b = true) : inBounds a b = true := by
  by_contra hout
  rw [testPixel_out (Bool.eq_false_of_not_eq_true hout)] at h
  exact Bool.false_ne_true h

theorem testPixel_plotAll_of_set {fb : Memory} (hw : Memory.wf Config.fbSize fb = true) (ps : List Point) {a b : Int}
    (h : testPixel fb a b = true) : testPixel (plotAll fb ps) a b = true := by
  rw [testPixel_plotAll hw ps (inBounds_of_testPixel h), h, Bool.true_or]

/-- A command that plots a list of points keeps every set pixel. -/
theorem keepsSetPixels_of_plots {i : Instr} {s : State} (hs : s.MemoriesOk) {ps : List Point}
    (h : exec i s = .next (s.drawn (plotAll s.fb ps))) :
    ∃ t, exec i s = .next t ∧ ∀ a b, s.pixel a b = true → t.pixel a b = true :=
  ⟨_, h, fun _ _ hset => testPixel_plotAll_of_set hs.1 ps hset⟩

/-- Settles O56: each of the six commands plots a list of points, SETP the one point (x, y). -/
theorem rasterizersOnlySetPixels : Obligations.RasterizersOnlySetPixels := by
  intro s x y x1 y1 m n hs
  have hsetp : exec (.setp x y) s = .next (s.drawn (plotAll s.fb [(x, y)])) := exec_setp s x y
  simp only [List.forall_mem_cons]
  exact ⟨keepsSetPixels_of_plots hs hsetp, keepsSetPixels_of_plots hs (exec_line s x y x1 y1),
    keepsSetPixels_of_plots hs (exec_circ s x y m), keepsSetPixels_of_plots hs (exec_circf s x y m),
    keepsSetPixels_of_plots hs (exec_elps s x y m n), keepsSetPixels_of_plots hs (exec_elpsf s x y m n), nofun⟩

end Sys2Proof.Machine
end

section
/-! The decoder and the encoder undo each other (30_encoding.md R61, R62, R65, R70): the settling of O1, O2 and O5. -/

namespace Sys2Proof

/-! ## Fields of a word -/

/-- Words are equal when their seven fields are (30_encoding.md R61). -/
theorem word_eq_iff_fields {c d : CmdWord} : c = d ↔ opField c = opField d ∧ flField c = flField d ∧
    pField c = pField d ∧ qField c = qField d ∧ xField c = xField d ∧ yField c = yField d ∧ auxField c = auxField d := by
  refine ⟨by rintro rfl; simp, fun ⟨hop, hfl, hp, hq, hx, hy, haux⟩ => ?_⟩
  rw [← wordOfFields_fields c, ← wordOfFields_fields d, hop, hfl, hp, hq, hx, hy, haux]

theorem opField_eq_of_toNat {c : CmdWord} {k : Nat} (h : (opField c).toNat = k) : opField c = BitVec.ofNat 8 k := by
  rw [← h, BitVec.ofNat_toNat, BitVec.setWidth_eq]

/-- With `FL[7:1]` zero the flag byte is the fill flag (30_encoding.md R67). -/
theorem flField_of_flHigh_zero {c : CmdWord} (h : flField c >>> 1 = 0#8) :
    flField c = if fillFlag c then 1#8 else 0#8 := by
  unfold fillFlag
  generalize flField c = fl at h
  revert fl
  decide

section Fields
variable (op fl p q : Byte) (x y x1 y1 : BitVec 16) (aux : BitVec 32)

@[simp] theorem fillFlag_wordOfFields : fillFlag (wordOfFields op fl p q x y aux) = fl.getLsbD 0 := by
  rw [fillFlag, flField_wordOfFields]

@[simp] theorem x1Field_wordOfFields : x1Field (wordOfFields op fl p q x y (x1 ++ y1)) = x1 := by
  rw [x1Field_eq, auxField_wordOfFields, BitVec.extractLsb'_append_eq_left]

@[simp] theorem y1Field_wordOfFields : y1Field (wordOfFields op fl p q x y (x1 ++ y1)) = y1 := by
  rw [y1Field_eq, auxField_wordOfFields, BitVec.extractLsb'_append_eq_right]

end Fields

/-- AUX of a LINE word is X1 and Y1 side by side (30_encoding.md R61). -/
@[simp] theorem x1Field_append_y1Field (c : CmdWord) : x1Field c ++ y1Field c = auxField c := by
  rw [x1Field_eq, y1Field_eq]
  exact BitVec.extractLsb'_append_extractLsb'_eq_extractLsb' rfl |>.trans BitVec.extractLsb'_eq_self

/-- The field SRC keeps an image address in range whole. -/
theorem zext32_srcField {v : Nat} (h : srcOk v = true) : zext32 (BitVec.ofNat 32 v) = v := by
  rw [zext32, BitVec.toNat_ofNat, Nat.mod_eq_of_lt (of_decide_eq_true h)]

theorem srcField_zext32 (v : BitVec 32) : BitVec.ofNat 32 (zext32 v) = v := by simp [zext32]

theorem srcOk_zext32 (v : BitVec 32) : srcOk (zext32 v) = true := decide_eq_true v.isLt

/-! ## The two round trips -/

/-- Settles O1: the word of a command passes its format's check, and every field gives its operand back whole. -/
theorem decodeOfEncode : Obligations.DecodeOfEncode := by
  intro i hwf
  cases i with
  | clr | inv => rfl
  | _ =>
    simp only [Instr.wf, Bool.and_eq_true] at hwf
    simp [decode, encode, checked_ok_iff, Format.reserved, FieldName.isZero, sext16_coordField, zext8_dimField,
      zext32_srcField, hwf]

/-- Settles O2, by the branches of the decoder: its opcode and the check of its format fix every field of the word that
holds no operand, and an operand's field is the field of what is read from it. -/
theorem encodeOfDecode : Obligations.EncodeOfDecode := by
  intro c i h
  unfold decode at h
  dsimp only at h
  split at h
  case h_12 => cases h -- an unassigned opcode
  all_goals
    have hop := opField_eq_of_toNat ‹(opField c).toNat = _›
    obtain ⟨hres, rfl⟩ := checked_ok_iff.mp h
    clear h
    simp only [Format.reserved, List.forall_mem_cons, FieldName.isZero, beq_iff_eq] at hres
  case' h_10 | h_11 => split -- circle and ellipse, by the fill flag
  all_goals
    simp [word_eq_iff_fields, encode, Instr.wf, flField_of_flHigh_zero, coordField_sext16, dimField_zext8,
      srcField_zext32, coordOk_sext16, dimOk_zext8, srcOk_zext32, *]

/-- Settles O5: the eight encodings are computed, and decoding undoes each because the command is well formed. -/
theorem workedEncodings : Obligations.WorkedEncodings := by
  intro e he
  have hword : e.1.wf = true ∧ encode e.1 = e.2 := by
    revert e
    decide
  exact ⟨hword.2, hword.2 ▸ decodeOfEncode e.1 hword.1⟩

end Sys2Proof
end

section
/-! The decoder and the opcode table (30_encoding.md R65 to R68): the settling of O3 and O4. -/

namespace Sys2Proof

/-! ## The fields of a masked word -/

section And
variable (c d : CmdWord)

theorem opField_and : opField (c &&& d) = opField c &&& opField d := BitVec.extractLsb'_and
theorem flField_and : flField (c &&& d) = flField c &&& flField d := BitVec.extractLsb'_and
theorem pField_and : pField (c &&& d) = pField c &&& pField d := BitVec.extractLsb'_and
theorem qField_and : qField (c &&& d) = qField c &&& qField d := BitVec.extractLsb'_and
theorem xField_and : xField (c &&& d) = xField c &&& xField d := BitVec.extractLsb'_and
theorem yField_and : yField (c &&& d) = yField c &&& yField d := BitVec.extractLsb'_and
theorem auxField_and : auxField (c &&& d) = auxField c &&& auxField d := BitVec.extractLsb'_and

end And

section Row
variable {r r' : OpcodeRow} {c : CmdWord} {i : Instr}

/-- A row's mask covers OP, FL and the fields its format reserves, and its pattern is zero in the latter. -/
theorem selects_iff (hr : r ∈ opcodeTable) : r.selects c = true ↔ opField c = opField r.pattern ∧
    flField c = flField r.pattern ∧ ∀ name ∈ r.format.reserved, name.isZero c = true := by
  have h8 (v : Byte) : v &&& 0xFF#8 = v := BitVec.and_allOnes
  have h16 (v : BitVec 16) : v &&& 0xFFFF#16 = v := BitVec.and_allOnes
  have h32 (v : BitVec 32) : v &&& 0xFFFFFFFF#32 = v := BitVec.and_allOnes
  rw [OpcodeRow.selects, beq_iff_eq, word_eq_iff_fields, opField_and, flField_and, pField_and, qField_and, xField_and,
    yField_and, auxField_and]
  revert r
  simp only [opcodeTable, List.forall_mem_cons]
  simp +contextual [opField, flField, pField, qField, xField, yField, auxField, Format.reserved, FieldName.isZero,
    h8, h16, h32]

/-- OP and FL tell the rows apart. -/
theorem row_eq_of_head (hr : r ∈ opcodeTable) (hr' : r' ∈ opcodeTable) (hop : opField r.pattern = opField r'.pattern)
    (hfl : flField r.pattern = flField r'.pattern) : r = r' := by
  have hnodup : (opcodeTable.map fun r => (opField r.pattern, flField r.pattern)).Nodup := by decide
  exact List.inj_on_of_nodup_map hnodup hr hr' (Prod.ext hop hfl)

/-- One row at most matches a word. -/
theorem row_eq_of_selects (hr : r ∈ opcodeTable) (hr' : r' ∈ opcodeTable) (h : r.selects c = true)
    (h' : r'.selects c = true) : r = r' := by
  obtain ⟨hop, hfl, -⟩ := (selects_iff hr).mp h
  obtain ⟨hop', hfl', -⟩ := (selects_iff hr').mp h'
  exact row_eq_of_head hr hr' (hop.symm.trans hop') (hfl.symm.trans hfl')

/-- A word with a row's opcode is checked against that row's format. -/
theorem decode_eq_checked (hr : r ∈ opcodeTable) (hop : opField c = opField r.pattern) :
    ∃ i, decode c = checked c r.format i := by
  unfold decode
  rw [hop]
  fin_cases hr <;> exact ⟨_, rfl⟩

/-- A word that a row matches is legal. -/
theorem decode_of_selects (hr : r ∈ opcodeTable) (h : r.selects c = true) : ∃ i, decode c = .ok i := by
  obtain ⟨hop, -, hres⟩ := (selects_iff hr).mp h
  obtain ⟨i, hi⟩ := decode_eq_checked hr hop
  exact ⟨i, hi.trans (checked_ok_iff.mpr ⟨hres, rfl⟩)⟩

/-- The word of every command begins with OP and FL of the row of its mnemonic (30_encoding.md R66). -/
theorem exists_row_of_instr (i : Instr) : ∃ r ∈ opcodeTable, r.mnemonic = i.mnemonic ∧
    opField (encode i) = opField r.pattern ∧ flField (encode i) = flField r.pattern := by
  have hhead : Laws.HeadBytes.Statement i := by cases i <;> exact Laws.HeadBytes.of_fields rfl rfl
  obtain ⟨r, hr, hbytes⟩ := Option.map_eq_some_iff.mp hhead
  obtain ⟨hop, hfl⟩ := Prod.mk.inj hbytes
  have hname := List.find?_some hr
  exact ⟨r, List.mem_of_find?_eq_some hr, beq_iff_eq.mp hname, hop.symm, hfl.symm⟩

/-- The row of the decoded command matches the word. -/
theorem selects_of_decode (h : decode c = .ok i) : ∃ r ∈ opcodeTable, r.mnemonic = i.mnemonic ∧ r.selects c = true := by
  obtain ⟨r, hr, hname, hop, hfl⟩ := exists_row_of_instr i
  rw [(encodeOfDecode c i h).1] at hop hfl
  obtain ⟨j, hj⟩ := decode_eq_checked hr hop
  obtain ⟨hres, -⟩ := checked_ok_iff.mp (hj.symm.trans h)
  exact ⟨r, hr, hname, (selects_iff hr).mpr ⟨hop, hfl, hres⟩⟩

/-- The row that matches a word is the whole list of the rows that match it. -/
theorem filter_selects_eq_singleton (hr : r ∈ opcodeTable) (h : r.selects c = true) :
    opcodeTable.filter (fun r' => r'.selects c) = [r] := by
  have hone : ∀ r' ∈ opcodeTable, r'.selects c = (r' == r) := fun r' hr' => by
    rw [Bool.eq_iff_iff, beq_iff_eq]
    exact ⟨fun h' => row_eq_of_selects hr' hr h' h, fun he => he ▸ h⟩
  rw [List.filter_congr hone, List.filter_beq, List.count_eq_one_of_mem (by decide) hr, List.replicate_one]

/-- A word is illegal exactly when no row matches it. -/
theorem no_row_selects_iff : (∀ r ∈ opcodeTable, r.selects c = false) ↔ ∃ e, decode c = .error e := by
  cases hdec : decode c with
  | ok i =>
    obtain ⟨r, hr, -, hsel⟩ := selects_of_decode hdec
    simp only [reduceCtorEq, exists_false, iff_false, not_forall]
    exact ⟨r, hr, by simp [hsel]⟩
  | error e =>
    refine iff_of_true (fun r hr => ?_) ⟨e, rfl⟩
    by_contra hsel
    obtain ⟨i, hi⟩ := decode_of_selects hr (Bool.eq_true_of_not_eq_false hsel)
    cases hdec.symm.trans hi

/-- Settles O3: the row of the decoded command matches, no other row does, and no row matches an illegal word. -/
theorem decodeMatchesOpcodeTable : Obligations.DecodeMatchesOpcodeTable := by
  intro c
  cases hdec : decode c with
  | ok i =>
    obtain ⟨r, hr, hname, hsel⟩ := selects_of_decode hdec
    simp [filter_selects_eq_singleton hr hsel, hname]
  | error e =>
    simpa using no_row_selects_iff.mpr ⟨e, hdec⟩

/-! ## Illegal words -/

/-- OP 0x00 and 0x0C to 0xFF name no command (30_encoding.md R68). -/
theorem decode_unassigned (h : opField c = 0x00#8 ∨ 0x0C ≤ (opField c).toNat) :
    decode c = .error (.unassignedOpcode (opField c)) := by
  unfold decode
  dsimp only
  split
  case h_12 => rfl
  all_goals simp [opField_eq_of_toNat ‹(opField c).toNat = _›] at h

end Row

/-- Every row has `FL[7:1]` zero, and F set only under the opcodes of circle and ellipse (30_encoding.md R67). -/
theorem flField_pattern {r : OpcodeRow} (hr : r ∈ opcodeTable) : flField r.pattern >>> 1 = 0#8 ∧
    ((flField r.pattern).getLsbD 0 = true → opField r.pattern = 0x0A#8 ∨ opField r.pattern = 0x0B#8) := by
  revert r
  decide

/-- Settles O4: an unassigned opcode has no branch in the decoder, a reserved field fails the check of the row's format,
and a word with an FL that no row has is matched by no row. -/
theorem reservedAndUnassignedWordsAreIllegal : Obligations.ReservedAndUnassignedWordsAreIllegal := by
  refine ⟨fun c => no_row_selects_iff, fun c => decode_unassigned, ?_, ?_, ?_, ?_, ?_⟩
  · intro c r name hr hop hname hzero
    obtain ⟨i, hi⟩ := decode_eq_checked hr hop
    cases hdec : decode c with
    | error e => exact ⟨e, rfl⟩
    | ok j =>
      obtain ⟨hres, -⟩ := checked_ok_iff.mp (hi.symm.trans hdec)
      simp [hres name hname] at hzero
  · intro c hfl
    refine no_row_selects_iff.mp fun r hr => Bool.eq_false_iff.mpr fun hsel => hfl ?_
    obtain ⟨-, hrow, -⟩ := (selects_iff hr).mp hsel
    rw [hrow, (flField_pattern hr).1]
  · intro c hF hA hB
    refine no_row_selects_iff.mp fun r hr => Bool.eq_false_iff.mpr fun hsel => ?_
    obtain ⟨hop, hrow, -⟩ := (selects_iff hr).mp hsel
    rw [hop] at hA hB
    rw [fillFlag, hrow] at hF
    exact ((flField_pattern hr).2 hF).elim hA hB
  · exact ⟨_, decode_unassigned (.inl (by decide))⟩
  · exact ⟨_, decode_unassigned (.inr (by decide))⟩

end Sys2Proof
end

section
/-! The one response of a command word (30_encoding.md R64, R68, R74): the settling of O6, O8, O16 and O18. -/

namespace Sys2Proof.Machine

/-- Settles O8: a word that no row matches does not decode, and the step raises IllegalCommand. -/
theorem illegalWordOnlyAnswers : Obligations.IllegalWordOnlyAnswers := by
  intro s w rest hidle hin hnone
  obtain ⟨e, hdec⟩ := no_row_selects_iff.mp hnone
  exact step_illegalWord hidle hin hdec

/-- Settles O6: the response word is the status code beside the data byte. -/
theorem responseWordLayout : Obligations.ResponseWordLayout := by
  refine ⟨fun r => ⟨BitVec.extractLsb'_append_eq_right, ?_⟩, rfl, rfl⟩
  rw [Response.word, BitVec.extractLsb'_append_eq_left]
  cases r.status <;> rfl

/-- Settles O16: of the ways a step can go, the two that accept a word respond once and the others not at all. -/
theorem oneResponsePerAcceptedWord : Obligations.OneResponsePerAcceptedWord := by
  intro s t h
  cases stepsTo_of_step h with
  | nothingPresented hin => simp [hin]
  | reset hin => simp [hin]
  | imageWrite hin => simp [hin]
  | wordWaits _ hbusy => simp [hbusy]
  | legalWord hin hidle _ hexec =>
    obtain ⟨-, -, -, data, hresp⟩ := frame_of_exec hexec
    exact ⟨fun _ => ⟨_, hresp⟩, fun hno => absurd ⟨_, _, hidle, hin⟩ hno⟩
  | illegalWord hin hidle _ => exact ⟨fun _ => ⟨_, rfl⟩, fun hno => absurd ⟨_, _, hidle, hin⟩ hno⟩

/-- A drawing command writes a framebuffer and answers (OK, 0x00) (30_encoding.md R74). -/
theorem exec_of_drawing {i : Instr} (hi : drawingCommand i = true) (s : State) :
    ∃ fb, exec i s = .next (s.drawn fb) := by
  cases i with
  | getp | rdb => cases hi
  | _ => exact ⟨_, rfl⟩

/-- A reading command answers a byte and writes nothing (30_encoding.md R74). -/
theorem exec_of_reading {i : Instr} (hi : drawingCommand i = false) (s : State) :
    ∃ data, exec i s = .next (s.answered data) := by
  cases i with
  | getp | rdb => exact ⟨_, rfl⟩
  | _ => cases hi

/-- Settles O18: the state after a command is `State.drawn` for a drawing command, `State.answered` for a reading one. -/
theorem commandFrame : Obligations.CommandFrame := by
  intro i s
  cases hi : drawingCommand i with
  | true =>
    obtain ⟨fb, hexec⟩ := exec_of_drawing hi s
    obtain ⟨hrest, hanswer⟩ := drew_drawn s fb
    exact ⟨_, _, hexec, hrest, hanswer, fun _ => rfl, nofun⟩
  | false =>
    obtain ⟨data, hexec⟩ := exec_of_reading hi s
    exact ⟨_, data, hexec, ⟨rfl, rfl, rfl⟩, ⟨rfl, rfl⟩, nofun, fun _ => rfl⟩

end Sys2Proof.Machine
end

section
/-! Commands that read the framebuffer (40_pixel_ops.md R95, R96): the settling of O31 and O32. -/

namespace Sys2Proof.Machine

/-- The byte GETP answers is 0x01 exactly for a pixel that is in bounds and set (40_pixel_ops.md R95). -/
theorem pixelByte_testPixel (fb : Memory) (x y : Int) : pixelByte (testPixel fb x y) =
    if (0 ≤ x ∧ x ≤ 127 ∧ 0 ≤ y ∧ y ≤ 63) ∧ (fbRead fb (y / 8) x).getLsbD (y % 8).toNat = true
      then 0x01#8 else 0x00#8 := by
  simp only [← inBounds_iff]
  by_cases h : inBounds x y = true
  · simp only [testPixel_of_inBounds h, h, true_and]; rfl
  · simp only [testPixel_out (Bool.eq_false_of_not_eq_true h), h]; rfl

/-- Settles O31: the state after GETP is `State.answered` with the pixel's byte. -/
theorem getpAnswersThePixel : Obligations.GetpAnswersThePixel := by
  intro s x y
  rw [exec_getp, pixelByte_testPixel]
  rfl

/-- Bit `k` of the byte RDB answers is the pixel (COL, 8 PAGE + k), which is 0 off the panel (20_memory.md R42, R46). -/
theorem readOut_bit (fb : Memory) (page col : Nat) {k : Nat} (hk : k < 8) :
    (readOut fb page col).getLsbD k = testPixel fb col (8 * page + k) := by
  unfold readOut
  split
  · rename_i hin
    exact fbRead_bit (by rw [byteInBounds_iff]; omega) hk
  · rename_i hout
    have h : inBounds col (8 * page + k) = false := by
      rw [← Bool.not_eq_true, inBounds_iff]; omega
    rw [testPixel_out h, BitVec.getLsbD_zero]

/-- Settles O32: the state after RDB is `State.answered` with `readOut`. -/
theorem rdbAnswersTheByte : Obligations.RdbAnswersTheByte := by
  intro s page col
  exact ⟨readOut s.fb page col, exec_rdb s page col, fun h => if_pos h, fun h => if_neg h,
    fun k hk => readOut_bit s.fb page col hk⟩

end Sys2Proof.Machine
end

section
/-! SETP (40_pixel_ops.md R94): the settling of O30. -/

namespace Sys2Proof.Machine

/-- The byte form of `Plot` at any coordinates: a framebuffer byte lies in column X only when X is on the panel. -/
theorem fbRead_plot {fb : Memory} (hw : Memory.wf Config.fbSize fb = true) (x y : Int) {p c : Int}
    (hpc : byteInBounds p c = true) : fbRead (plot fb x y) p c =
      if (0 ≤ y ∧ y ≤ 63) ∧ p = y / 8 ∧ c = x then fbRead fb p c ||| (1#8 <<< (y % 8).toNat) else fbRead fb p c := by
  obtain ⟨hout, hin, -, -⟩ := plotSetsOneBit fb hw x y
  by_cases h : inBounds x y = true
  · have hrow : 0 ≤ y ∧ y ≤ 63 := (inBounds_iff.1 h).2.2
    rw [hin h p c hpc]
    simp only [hrow, and_self, true_and]
  · have hne : ¬((0 ≤ y ∧ y ≤ 63) ∧ p = y / 8 ∧ c = x) := by
      rw [inBounds_iff] at h
      rw [byteInBounds_iff] at hpc
      omega
    rw [hout (Bool.eq_false_of_not_eq_true h), if_neg hne]

/-- Settles O30: SETP is `Plot`, whose byte form, case out of bounds and idempotence are O21's. -/
theorem setpSetsOnePixel : Obligations.SetpSetsOnePixel := by
  intro s x y hs
  obtain ⟨hout, -, hidem, -⟩ := plotSetsOneBit s.fb hs.1 x y
  refine ⟨_, exec_setp s x y, drew_drawn s _, fun p c => fbRead_plot hs.1 x y, fun h => ?_, _, exec_setp _ x y, hidem⟩
  rw [← inBounds_iff] at h
  exact hout (Bool.eq_false_of_not_eq_true h)

end Sys2Proof.Machine
end

section
/-! The area commands CLRA and INVA (40_pixel_ops.md R91, R93, R97 to R99): the settling of O27, O28 and O29. -/

namespace Sys2Proof.Machine

/-! ## What the two area commands share -/

/-- `f` keeps the canonical form, and combines each pixel's value by `g` with whether the pixel is one of those `m`
names. -/
structure AreaOp (f : Memory → Memory) (g : Bool → Bool → Bool) (m : Int → Int → Bool) : Prop where
  wf : ∀ {fb : Memory}, Memory.wf Config.fbSize fb = true → Memory.wf Config.fbSize (f fb) = true
  pixel : ∀ {fb : Memory}, Memory.wf Config.fbSize fb = true → ∀ {a b : Int}, inBounds a b = true →
    testPixel (f fb) a b = g (testPixel fb a b) (m a b)

/-- The pixel (a, b) is one of the rectangle (X, Y, W, H) (40_pixel_ops.md R97). -/
def inRect (x y : Int) (w h : Nat) (a b : Int) : Bool :=
  decide (x ≤ a ∧ a ≤ x + w - 1 ∧ y ≤ b ∧ b ≤ y + h - 1)

theorem inRect_eq_mem (x y : Int) (w h : Nat) (a b : Int) :
    inRect x y w h a b = decide ((a, b) ∈ rectPoints x y w h) := by
  simp only [inRect, mem_rectPoints]

theorem areaOp_unplotAll (x y : Int) (w h : Nat) :
    AreaOp (fun fb => unplotAll fb (rectPoints x y w h)) (fun v m => v && !m) (inRect x y w h) where
  wf hw := wf_unplotAll hw _
  pixel hw a b hab := by rw [testPixel_unplotAll hw _ hab, inRect_eq_mem]

theorem areaOp_toggleAll (x y : Int) (w h : Nat) :
    AreaOp (fun fb => toggleAll fb (rectPoints x y w h)) (fun v m => v ^^ m) (inRect x y w h) where
  wf hw := wf_toggleAll hw _
  pixel hw a b hab := by rw [testPixel_toggleAll hw (nodup_rectPoints x y w h) hab, inRect_eq_mem]

section AreaOp
variable {f : Memory → Memory} {g : Bool → Bool → Bool} {m : Int → Int → Bool} {fb : Memory}

theorem AreaOp.idempotent (hf : AreaOp f g m) (hw : Memory.wf Config.fbSize fb = true)
    (hg : ∀ v m, g (g v m) m = g v m) : f (f fb) = f fb := by
  refine fb_eq_of_pixels (hf.wf (hf.wf hw)) (hf.wf hw) (fun a b hab => ?_)
  rw [hf.pixel (hf.wf hw) hab, hf.pixel hw hab, hg]

theorem AreaOp.involutive (hf : AreaOp f g m) (hw : Memory.wf Config.fbSize fb = true)
    (hg : ∀ v m, g (g v m) m = v) : f (f fb) = fb := by
  refine fb_eq_of_pixels (hf.wf (hf.wf hw)) hw (fun a b hab => ?_)
  rw [hf.pixel (hf.wf hw) hab, hf.pixel hw hab, hg]

/-- The pixel form over a rectangle: only its pixels get a mask bit. -/
theorem AreaOp.rect_pixel {x y : Int} {w h : Nat} (hf : AreaOp f g (inRect x y w h))
    (hw : Memory.wf Config.fbSize fb = true) {a b : Int} (hab : inBounds a b = true) :
    testPixel (f fb) a b = if x ≤ a ∧ a ≤ x + w - 1 ∧ y ≤ b ∧ b ≤ y + h - 1
      then g (testPixel fb a b) true else g (testPixel fb a b) false := by
  rw [hf.pixel hw hab, inRect]
  split
  · rw [decide_eq_true ‹_›]
  · rw [decide_eq_false ‹_›]

/-- The same bit by bit of a byte: bit `k` of `FB[p][c]` is the pixel (c, 8 p + k). -/
theorem AreaOp.bit (hf : AreaOp f g m) (hw : Memory.wf Config.fbSize fb = true) {p c : Int}
    (h : byteInBounds p c = true) {k : Nat} (hk : k < 8) :
    (fbRead (f fb) p c).getLsbD k = g ((fbRead fb p c).getLsbD k) (m c (8 * p + k)) := by
  have hin : inBounds c (8 * p + k) = true := by
    rw [byteInBounds_iff] at h
    rw [inBounds_iff]
    omega
  rw [fbRead_bit h hk, fbRead_bit h hk, hf.pixel hw hin]

/-- The byte form over a rectangle: `G`, the operation `g` bit by bit, applied with `RowMask(p)` in the clipped columns
(40_pixel_ops.md R99). -/
theorem AreaOp.rect_byte {x y : Int} {w h : Nat} (hf : AreaOp f g (inRect x y w h)) (G : Byte → Byte → Byte)
    (hG : ∀ (v r : Byte) {k : Nat}, k < 8 → (G v r).getLsbD k = g (v.getLsbD k) (r.getLsbD k))
    (hg : ∀ v, g v false = v) (hw : Memory.wf Config.fbSize fb = true) {p c : Int} (hpc : byteInBounds p c = true) :
    fbRead (f fb) p c =
      if max x 0 ≤ c ∧ c ≤ min (x + w - 1) 127 then G (fbRead fb p c) (rowMask y h p) else fbRead fb p c := by
  obtain ⟨-, -, hc0, hc127⟩ := byteInBounds_iff.1 hpc
  refine BitVec.eq_of_getLsbD_eq fun k hk => ?_
  rw [hf.bit hw hpc hk]
  split
  · rename_i hcol
    have hx : x ≤ c ∧ c ≤ x + w - 1 := by omega
    simp only [hG _ _ hk, rowMask_bit y h p hk, inRect, hx, true_and]
  · rename_i hcol
    have hx : ¬(x ≤ c ∧ c ≤ x + w - 1) := by omega
    have hm : inRect x y w h c (8 * p + k) = false := decide_eq_false fun hr => hx ⟨hr.1, hr.2.1⟩
    rw [hm, hg]

end AreaOp

/-! ## The settling -/

/-- A rectangle of width or height 0 has no pixel (40_pixel_ops.md R98). -/
theorem rectPoints_eq_nil (x y : Int) {w h : Nat} (h0 : w = 0 ∨ h = 0) : rectPoints x y w h = [] := by
  refine List.eq_nil_iff_forall_not_mem.2 fun ⟨a, b⟩ hq => ?_
  rw [mem_rectPoints] at hq
  omega

/-- Settles O27: AND with the complement of the mask, pixel by pixel, is idempotent. -/
theorem clraClearsTheRectangle : Obligations.ClraClearsTheRectangle := by
  intro s x y w h hs
  have hop := areaOp_unplotAll x y w h
  refine ⟨_, exec_clra s x y w h, drew_drawn s _, fun a b hab => (hop.rect_pixel hs.1 hab).trans ?_, fun h0 => ?_,
    _, exec_clra _ x y w h, hop.idempotent hs.1 (by decide)⟩
  · simp [State.pixel]
  · rw [rectPoints_eq_nil x y h0]; rfl

/-- Settles O28: XOR with the mask, pixel by pixel, undoes itself. -/
theorem invaTogglesTheRectangle : Obligations.InvaTogglesTheRectangle := by
  intro s x y w h hs
  have hop := areaOp_toggleAll x y w h
  refine ⟨_, exec_inva s x y w h, drew_drawn s _, fun a b hab => (hop.rect_pixel hs.1 hab).trans ?_, fun h0 => ?_,
    _, exec_inva _ x y w h, hop.involutive hs.1 (by decide)⟩
  · simp [State.pixel]
  · rw [rectPoints_eq_nil x y h0]; rfl

/-- Settles O29: the byte form of both commands is `AreaOp.rect_byte`. -/
theorem areaCommandsByteForm : Obligations.AreaCommandsByteForm := by
  intro s x y w h hs
  refine ⟨⟨_, exec_clra s x y w h, fun p c hpc => ?_⟩, ⟨_, exec_inva s x y w h, fun p c hpc => ?_⟩⟩
  · exact (areaOp_unplotAll x y w h).rect_byte (fun v r => v &&& ~~~r) (fun v r k hk => by simp [hk]) (by decide)
      hs.1 hpc
  · exact (areaOp_toggleAll x y w h).rect_byte (fun v r => v ^^^ r) (fun v r k _ => by simp) (by decide) hs.1 hpc

end Sys2Proof.Machine
end

section
/-! The whole-panel commands CLR and INV, and that they are the area commands over the whole panel (40_pixel_ops.md R90,
R92, R100): the settling of O25 and O26. -/

namespace Sys2Proof.Machine

/-- The rectangle (0, 0, 128, 64) is the panel (20_memory.md R41). -/
theorem inRect_panel {a b : Int} (hab : inBounds a b = true) : inRect 0 0 128 64 a b = true := by
  rw [inBounds_iff] at hab
  exact decide_eq_true (by omega)

/-- An area operation over the whole panel rewrites every byte by `f`, when setting every mask bit does `f` bit by
bit. -/
theorem AreaOp.panel_eq_mapBytes {op : Memory → Memory} {g : Bool → Bool → Bool}
    (hop : AreaOp op g (inRect 0 0 128 64)) {f : Byte → Byte}
    (hf : ∀ (v : Byte) {k : Nat}, k < 8 → (f v).getLsbD k = g (v.getLsbD k) true) {fb : Memory}
    (hw : Memory.wf Config.fbSize fb = true) : op fb = mapBytes f fb := by
  refine fb_eq_of_pixels (hop.wf hw) (wf_mapBytes f fb) (fun a b hab => ?_)
  rw [hop.pixel hw hab, inRect_panel hab, testPixel_of_inBounds hab, testPixel_of_inBounds hab,
    fbRead_mapBytes f fb (byteInBounds_of_inBounds hab), hf _ (bitOf_lt b)]

theorem unplotAll_panel {fb : Memory} (hw : Memory.wf Config.fbSize fb = true) :
    unplotAll fb (rectPoints 0 0 128 64) = mapBytes (fun _ => 0#8) fb :=
  (areaOp_unplotAll 0 0 128 64).panel_eq_mapBytes (fun v k _ => by simp) hw

theorem toggleAll_panel {fb : Memory} (hw : Memory.wf Config.fbSize fb = true) :
    toggleAll fb (rectPoints 0 0 128 64) = mapBytes (fun b => b ^^^ 0xFF#8) fb := by
  refine (areaOp_toggleAll 0 0 128 64).panel_eq_mapBytes (fun v k hk => ?_) hw
  have hones : (0xFF#8).getLsbD k = true := by
    rw [show 0xFF#8 = BitVec.allOnes 8 from rfl, BitVec.getLsbD_allOnes, decide_eq_true hk]
  rw [BitVec.getLsbD_xor, hones]

/-- Complementing every byte twice gives the framebuffer back. -/
theorem mapBytes_complement_twice {fb : Memory} (hw : Memory.wf Config.fbSize fb = true) :
    mapBytes (fun b => b ^^^ 0xFF#8) (mapBytes (fun b => b ^^^ 0xFF#8) fb) = fb := by
  refine fb_eq_of_bytes (wf_mapBytes _ _) hw (fun p c hpc => ?_)
  rw [fbRead_mapBytes _ _ hpc, fbRead_mapBytes _ _ hpc, BitVec.xor_assoc, BitVec.xor_self, BitVec.xor_zero]

/-- Writing one value to every byte leaves the same framebuffer from any two. -/
theorem mapBytes_const (v : Byte) (fb fb' : Memory) : mapBytes (fun _ => v) fb = mapBytes (fun _ => v) fb' := by
  unfold mapBytes
  rfl

/-- Settles O25: what CLR writes does not depend on the framebuffer before it. -/
theorem clrZeroesEveryByte : Obligations.ClrZeroesEveryByte := by
  intro s
  refine ⟨_, exec_clr s, drew_drawn s _, fun p c hpc => ?_, ⟨_, exec_clr _, ?_⟩, fun hs => ?_⟩
  · rw [State.fbByte, State.drawn_fb, fbRead_mapBytes _ _ hpc]
  · simp only [State.drawn_fb]
    exact mapBytes_const _ _ _
  · rw [exec_clra, unplotAll_panel hs.1]

/-- Settles O26: INV rewrites every byte, and complementing undoes itself. -/
theorem invComplementsEveryByte : Obligations.InvComplementsEveryByte := by
  intro s
  refine ⟨_, exec_inv s, drew_drawn s _, fun p c => fbRead_mapBytes (fun b => b ^^^ 0xFF#8) s.fb,
    fun hs => ⟨⟨_, exec_inv _, mapBytes_complement_twice hs.1⟩, ?_⟩⟩
  rw [exec_inva, toggleAll_panel hs.1]

end Sys2Proof.Machine
end

section
/-! A pixel written, then read back (40_pixel_ops.md R100): the settling of O33. -/

namespace Sys2Proof.Machine

/-- GETP after a drawing command appends the command's (OK, 0x00) and then the pixel of the framebuffer drawn. -/
theorem getp_after_drawn {i : Instr} {s : State} {fb : Memory} (hexec : exec i s = .next (s.drawn fb)) (x y : Int) :
    ∃ t u, exec i s = .next t ∧ exec (.getp x y) t = .next u ∧
      u.responses = s.responses ++ [⟨.ok, 0x00#8⟩, ⟨.ok, pixelByte (testPixel fb x y)⟩] :=
  ⟨_, _, hexec, exec_getp _ x y, by simp⟩

/-- Settles O33: after `Plot` the pixel is 1, after `Unplot` over a rectangle that contains it 0. -/
theorem setOrClearThenGet : Obligations.SetOrClearThenGet := by
  intro s x y hs hxy
  refine ⟨?_, fun rx ry w h hx hx' hy hy' => ?_⟩
  · have hset : testPixel (plot s.fb x y) x y = true := by simp [testPixel_plot hs.1 x y hxy]
    have hget := getp_after_drawn (exec_setp s x y) x y
    rwa [hset] at hget
  · have hmem : (x, y) ∈ rectPoints rx ry w h := mem_rectPoints.2 (by omega)
    have hclear : testPixel (unplotAll s.fb (rectPoints rx ry w h)) x y = false := by
      simp [testPixel_unplotAll hs.1 _ hxy, hmem]
    have hget := getp_after_drawn (exec_clra s rx ry w h) x y
    rwa [hclear] at hget

end Sys2Proof.Machine
end

section
/-! The blitter BLIT (41_blit.md R110 to R118): the settling of O34, O35 and O36. -/

namespace Sys2Proof.Machine

/-! ## BLIT pixel by pixel -/

/-- The source bit of the pixel (a, b): bit `(b - Y) mod 8` of source byte `((b - Y) div 8, a - X)` (41_blit.md R117). -/
def sourceBit (img : Memory) (x y : Int) (w src : Nat) (a b : Int) : Bool :=
  (imgRead img (imageAddress src w ((b - y) / 8).toNat (a - x).toNat)).getLsbD ((b - y) % 8).toNat

/-- The merge of BLIT sets the pixel (a, b): it lies in the rows of the bitmap's bands, excess rows included, and its
source bit is set (41_blit.md R115, R117). -/
def blitSets (img : Memory) (x y : Int) (w h src : Nat) (a b : Int) : Bool :=
  inRect x y w (8 * bandCount h) a b && sourceBit img x y w src a b

/-- The framebuffer BLIT draws: the rectangle cleared, then the bands merged (41_blit.md R110). -/
def blitFb (img : Memory) (x y : Int) (w h src : Nat) (fb : Memory) : Memory :=
  blitBands img x y w h src (unplotAll fb (rectPoints x y w h))

theorem exec_blit_eq_blitFb (x y : Int) (w h src : Nat) (s : State) :
    exec (.blit x y w h src) s = .next (s.drawn (blitFb s.img x y w h src s.fb)) := rfl

section BlitFb
variable {fb : Memory} (hw : Memory.wf Config.fbSize fb = true) (img : Memory) (x y : Int) (w h src : Nat)
include hw

theorem wf_blitFb : Memory.wf Config.fbSize (blitFb img x y w h src fb) = true :=
  wf_blitBands (wf_unplotAll hw _) img x y w h src

/-- A pixel after BLIT: cleared inside the rectangle, then set by the merge. -/
theorem testPixel_blitFb {a b : Int} (hab : inBounds a b = true) :
    testPixel (blitFb img x y w h src fb) a b =
      (testPixel fb a b && !inRect x y w h a b || blitSets img x y w h src a b) := by
  have hband : (x ≤ a ∧ a < x + w ∧ y ≤ b ∧ b < y + 8 * bandCount h) ↔
      (x ≤ a ∧ a ≤ x + w - 1 ∧ y ≤ b ∧ b ≤ y + (8 * bandCount h : Nat) - 1) := by omega
  rw [blitFb, testPixel_blitBands (wf_unplotAll hw _) img x y w h src hab, testPixel_unplotAll hw _ hab,
    ← inRect_eq_mem, decide_eq_decide.2 hband]
  rfl

/-- The three places a pixel can lie: in the rectangle, in the excess rows below it, elsewhere. The bands cover at least
the rectangle's rows (41_blit.md R117). -/
theorem testPixel_blitFb_by_place {a b : Int} (hab : inBounds a b = true) :
    testPixel (blitFb img x y w h src fb) a b =
      if x ≤ a ∧ a ≤ x + w - 1 ∧ y ≤ b ∧ b ≤ y + h - 1 then sourceBit img x y w src a b
      else if x ≤ a ∧ a ≤ x + w - 1 ∧ y + h ≤ b ∧ b ≤ y + 8 * (bandCount h : Nat) - 1
        then testPixel fb a b || sourceBit img x y w src a b
      else testPixel fb a b := by
  have hcover : h ≤ 8 * bandCount h := by unfold bandCount; omega
  rw [testPixel_blitFb hw img x y w h src hab, blitSets]
  split
  · rename_i hrect
    have hin : inRect x y w h a b = true := decide_eq_true hrect
    have hband : inRect x y w (8 * bandCount h) a b = true := decide_eq_true (by omega)
    simp [hin, hband]
  · rename_i hrect
    have hout : inRect x y w h a b = false := decide_eq_false hrect
    split
    · have hband : inRect x y w (8 * bandCount h) a b = true := decide_eq_true (by omega)
      simp [hout, hband]
    · have hband : inRect x y w (8 * bandCount h) a b = false := decide_eq_false (by omega)
      simp [hout, hband]

/-- The second clear undoes nothing that the second merge does not set again (41_blit.md R118 (b)). -/
theorem blitFb_idempotent : blitFb img x y w h src (blitFb img x y w h src fb) = blitFb img x y w h src fb := by
  have hw' := wf_blitFb hw img x y w h src
  refine fb_eq_of_pixels (wf_blitFb hw' img x y w h src) hw' (fun a b hab => ?_)
  have hbool : ∀ v r m : Bool, ((v && !r || m) && !r || m) = (v && !r || m) := by decide
  rw [testPixel_blitFb hw' img x y w h src hab, testPixel_blitFb hw img x y w h src hab, hbool]

end BlitFb

/-! ## The bytes BLIT reads -/

/-- BLIT reads the image space only at the source bytes whose destination column is on the panel (41_blit.md R112). -/
theorem blitFb_congr_img {img img' : Memory} {x y : Int} {w h src : Nat}
    (hread : ∀ j < bandCount h, ∀ i < w, 0 ≤ x + i ∧ x + i ≤ 127 →
      imgRead img (imageAddress src w j i) = imgRead img' (imageAddress src w j i)) (fb : Memory) :
    blitFb img x y w h src fb = blitFb img' x y w h src fb := by
  unfold blitFb blitBands blitBand
  refine List.foldl_ext _ _ _ fun m j hj => List.foldl_ext _ _ _ fun m i hi => ?_
  unfold blitByte
  by_cases hcol : 0 ≤ x + (i : Int) ∧ x + (i : Int) ≤ 127
  · rw [hread j (List.mem_range.1 hj) i (List.mem_range.1 hi) hcol]
  · simp only [hcol, if_false]

/-! ## The settling -/

/-- Settles O34: `testPixel_blitFb_by_place` for the image space and framebuffer of the state. -/
theorem blitPixelMeaning : Obligations.BlitPixelMeaning := by
  intro s x y w h src hs
  exact ⟨_, exec_blit_eq_blitFb x y w h src s, drew_drawn s _,
    fun a b hab => testPixel_blitFb_by_place hs.1 s.img x y w h src hab⟩

/-- Settles O35: the image space and the canonical form survive the first BLIT, so `blitFb_idempotent` applies, and
CLRA clears its rectangle in any framebuffer. -/
theorem blitThenClearAndBlitTwice : Obligations.BlitThenClearAndBlitTwice := by
  intro s x y w h src hs
  refine ⟨_, exec_blit_eq_blitFb x y w h src s, ⟨_, exec_blit_eq_blitFb x y w h src _, ?_⟩, _, exec_clra _ x y w h,
    fun a b hab hx hx' hy hy' => ?_⟩
  · exact blitFb_idempotent hs.1 s.img x y w h src
  · have hmem : (a, b) ∈ rectPoints x y w h := mem_rectPoints.2 (by omega)
    simp [State.pixel, testPixel_unplotAll (wf_blitFb hs.1 s.img x y w h src) _ hab, hmem]

/-- Settles O36: `blitFb_congr_img`, from any framebuffer, canonical or not. -/
theorem blitReadsOnlyItsBitmap : Obligations.BlitReadsOnlyItsBitmap := by
  intro s s' x y w h src hfb hread
  refine ⟨_, _, exec_blit_eq_blitFb x y w h src s, exec_blit_eq_blitFb x y w h src s', ?_⟩
  rw [State.drawn_fb, State.drawn_fb, ← hfb]
  exact blitFb_congr_img (fun j hj i hi hcol => hread j i hj hi hcol.1 hcol.2) s.fb

end Sys2Proof.Machine
end

section
/-! LINE and the pixels of the framebuffer (42_line.md R120, R124), and the horizontal and the vertical case (R121): the
settling of O37 and O38. -/

namespace Sys2Proof.Machine

/-! ## A list of points plotted -/

/-- Bit `k` of a framebuffer byte is a pixel of the panel (20_memory.md R42). -/
theorem inBounds_of_byteInBounds {p c : Int} (h : byteInBounds p c = true) {k : Nat} (hk : k < 8) :
    inBounds c (8 * p + k) = true := by
  rw [byteInBounds_iff] at h
  rw [inBounds_iff]
  omega

/-- Plotting a list leaves every byte that holds none of its points. -/
theorem fbRead_plotAll_of_not_mem {fb : Memory} (hw : Memory.wf Config.fbSize fb = true) {ps : List Point} {p c : Int}
    (h : byteInBounds p c = true) (hps : ∀ k : Nat, k < 8 → (c, 8 * p + (k : Int)) ∉ ps) :
    fbRead (plotAll fb ps) p c = fbRead fb p c := by
  refine BitVec.eq_of_getLsbD_eq fun k hk => ?_
  rw [fbRead_bit h hk, fbRead_bit h hk, testPixel_plotAll hw ps (inBounds_of_byteInBounds h hk),
    decide_eq_false (hps k hk), Bool.or_false]

/-- LINE sets exactly the in-bounds points of its list (42_line.md R120, R124). -/
theorem line_sets_its_pixels {s : State} (hs : s.MemoriesOk) (x0 y0 x1 y1 : Int) :
    ∃ t, exec (.line x0 y0 x1 y1) s = .next t ∧ s.Drew t ∧ t.fb = plotAll s.fb (linePixels x0 y0 x1 y1) ∧
      ∀ a b, inBounds a b = true →
        t.pixel a b = (s.pixel a b || decide ((a, b) ∈ linePixels x0 y0 x1 y1)) :=
  ⟨_, exec_line s x0 y0 x1 y1, drew_drawn s _, rfl, fun _ _ hab => testPixel_plotAll hs.1 _ hab⟩

/-- Settles O37: `plotAll` sets the points of its list and leaves the bytes that hold none of them. -/
theorem linePlotsItsPixels : Obligations.LinePlotsItsPixels := by
  intro s x0 y0 x1 y1 hs
  obtain ⟨t, hexec, hdrew, hfb, hpixel⟩ := line_sets_its_pixels hs x0 y0 x1 y1
  refine ⟨t, hexec, hdrew, hpixel, fun p c hpc hps => ?_⟩
  rw [State.fbByte, hfb]
  exact fbRead_plotAll_of_not_mem hs.1 hpc hps

/-! ## The three cases of a line -/

theorem linePixels_horizontal (x0 x1 y : Int) :
    linePixels x0 y x1 y = (intRange (min x0 x1) (max x0 x1)).map (fun x => (x, y)) := if_pos rfl

theorem linePixels_vertical (x : Int) {y0 y1 : Int} (hy : y0 ≠ y1) :
    linePixels x y0 x y1 = (intRange (min y0 y1) (max y0 y1)).map (fun y => (x, y)) :=
  (if_neg hy).trans (if_pos rfl)

theorem linePixels_slanted {x0 y0 x1 y1 : Int} (hx : x0 ≠ x1) (hy : y0 ≠ y1) :
    linePixels x0 y0 x1 y1 = slantedPoints x0 y0 x1 y1 :=
  (if_neg hy).trans (if_neg hx)

theorem mem_linePixels_horizontal {x0 x1 y a b : Int} :
    (a, b) ∈ linePixels x0 y x1 y ↔ b = y ∧ min x0 x1 ≤ a ∧ a ≤ max x0 x1 := by
  simp only [linePixels_horizontal, List.mem_map, mem_intRange, Prod.mk.injEq]
  constructor
  · rintro ⟨x, hx, rfl, rfl⟩; exact ⟨rfl, hx⟩
  · rintro ⟨rfl, ha⟩; exact ⟨a, ha, rfl, rfl⟩

/-- A line between two ends of one column; with equal ends the single pixel, which both cases give (42_line.md R120). -/
theorem mem_linePixels_vertical {x y0 y1 a b : Int} :
    (a, b) ∈ linePixels x y0 x y1 ↔ a = x ∧ min y0 y1 ≤ b ∧ b ≤ max y0 y1 := by
  by_cases hy : y0 = y1
  · subst hy
    rw [mem_linePixels_horizontal]
    omega
  · simp only [linePixels_vertical x hy, List.mem_map, mem_intRange, Prod.mk.injEq]
    constructor
    · rintro ⟨y, hy, rfl, rfl⟩; exact ⟨rfl, hy⟩
    · rintro ⟨rfl, hb⟩; exact ⟨b, hb, rfl, rfl⟩

/-- Settles O38: the points of both cases are those of `intRange` from the smaller to the larger end. -/
theorem horizontalAndVerticalLines : Obligations.HorizontalAndVerticalLines := by
  refine ⟨fun s x0 x1 y hs => ?_, fun s x y0 y1 hs => ?_⟩
  · obtain ⟨t, hexec, hdrew, -, hpixel⟩ := line_sets_its_pixels hs x0 y x1 y
    refine ⟨t, hexec, hdrew, fun a b hab => ?_⟩
    rw [hpixel a b hab, decide_eq_decide.2 mem_linePixels_horizontal]
  · obtain ⟨t, hexec, hdrew, -, hpixel⟩ := line_sets_its_pixels hs x y0 x y1
    refine ⟨t, hexec, hdrew, fun a b hab => ?_⟩
    rw [hpixel a b hab, decide_eq_decide.2 mem_linePixels_vertical]

end Sys2Proof.Machine
end

section
/-! The ends of a line exchanged (42_line.md R123 (c)): the settling of O42. -/

namespace Sys2Proof.Machine

/-- Transform 1 orders the two ends by their x values only, whichever comes first (42_line.md R123 (c)). -/
theorem lineExchange_comm {x0 x1 : Int} (y0 y1 : Int) (yflag xyflag : Bool) (hx : x0 ≠ x1) :
    lineExchange ⟨x0, y0, x1, y1, yflag, xyflag⟩ = lineExchange ⟨x1, y1, x0, y0, yflag, xyflag⟩ := by
  unfold lineExchange
  rcases lt_or_gt_of_ne hx with h | h
  · rw [if_neg (by dsimp only; omega), if_pos h]
  · rw [if_pos h, if_neg (by dsimp only; omega)]

/-- A line and the line with its ends exchanged emit the same list of points. -/
theorem linePixels_comm (x0 y0 x1 y1 : Int) : linePixels x0 y0 x1 y1 = linePixels x1 y1 x0 y0 := by
  by_cases hy : y0 = y1
  · subst hy
    rw [linePixels_horizontal, linePixels_horizontal, min_comm, max_comm]
  · by_cases hx : x0 = x1
    · subst hx
      rw [linePixels_vertical x0 hy, linePixels_vertical x0 (Ne.symm hy), min_comm, max_comm]
    · rw [linePixels_slanted hx hy, linePixels_slanted (Ne.symm hx) (Ne.symm hy)]
      simp only [slantedPoints, lineNormalize, lineExchange_comm y0 y1 false false hx]

/-- Settles O42: LINE plots its list, and the two lists are equal. -/
theorem lineEndsCanBeExchanged : Obligations.LineEndsCanBeExchanged := by
  intro s x0 y0 x1 y1
  rw [exec_line, exec_line, linePixels_comm]

end Sys2Proof.Machine
end

section
/-! The closed form of a line (42_line.md R122, R123): the settling of O39, O40 and O41. -/

namespace Sys2Proof.Machine

/-! ## The minor coordinate -/

/-- How far the minor coordinate has moved after `k` steps of a line that moves `major` and `minor` in all: `k` times
the slope, rounded to the nearest, a tie away from the start (42_line.md R123 (d)). -/
def lineRise (major minor k : Int) : Int := (2 * k * minor + major) / (2 * major)

section LineRise
variable {major minor : Int}

/-- Half a step rounds down to none. -/
theorem ediv_two_mul_self (h : 0 ≤ major) : major / (2 * major) = 0 := by
  rcases h.eq_or_lt with rfl | hpos
  · rfl
  · exact Int.ediv_eq_zero_of_lt h (by omega)

theorem lineRise_start (h : 0 ≤ major) (minor : Int) : lineRise major minor 0 = 0 := by
  simpa [lineRise] using ediv_two_mul_self h

theorem lineRise_level (h : 0 ≤ major) (k : Int) : lineRise major 0 k = 0 := by
  simpa [lineRise] using ediv_two_mul_self h

variable (h0 : 0 ≤ minor) (h1 : minor ≤ major)
include h0 h1

theorem lineRise_end : lineRise major minor major = minor := by
  rcases (h0.trans h1).eq_or_lt with rfl | hpos
  · obtain rfl : minor = 0 := le_antisymm h1 h0
    exact lineRise_start le_rfl 0
  · rw [lineRise, Int.ediv_eq_iff_of_pos (by omega)]
    constructor <;> linarith

/-- A step moves the minor coordinate by 0 or 1 (42_line.md R123 (b)). -/
theorem lineRise_succ (k : Int) : lineRise major minor k ≤ lineRise major minor (k + 1) ∧
    lineRise major minor (k + 1) ≤ lineRise major minor k + 1 := by
  unfold lineRise
  rcases (h0.trans h1).eq_or_lt with rfl | hpos
  · simp
  · rw [← Int.add_mul_ediv_right (2 * k * minor + major) 1 (show 2 * major ≠ 0 by omega)]
    exact ⟨Int.ediv_le_ediv (by omega) (by linarith), Int.ediv_le_ediv (by omega) (by linarith)⟩

end LineRise

/-! ## The points of a line from its smaller-x end -/

/-- `|v - u|`, the way between two coordinates. -/
def extent (u v : Int) : Int := max (v - u) (u - v)

theorem extent_self (u : Int) : extent u u = 0 := by simp [extent]

theorem extent_comm (u v : Int) : extent u v = extent v u := max_comm _ _

theorem extent_of_le {u v : Int} (h : u ≤ v) : extent u v = v - u := max_eq_left (by omega)

theorem extent_nonneg (u v : Int) : 0 ≤ extent u v := by unfold extent; omega

/-- The direction in which y runs. -/
def lineDir (y0 y1 : Int) : Int := if y0 < y1 then 1 else -1

/-- The end with the smaller x comes first; of two ends in one column, the one with the smaller y. -/
def LineForward (x0 y0 x1 y1 : Int) : Prop := x0 < x1 ∨ x0 = x1 ∧ y0 ≤ y1

theorem lineForward_total (x0 y0 x1 y1 : Int) : LineForward x0 y0 x1 y1 ∨ LineForward x1 y1 x0 y0 := by
  unfold LineForward
  omega

/-- The `k`-th point of a forward line: `k` steps along the coordinate with the larger extent, the other one rounded. -/
def lineStepAt (x0 y0 x1 y1 : Int) (k : Nat) : Point :=
  if extent y0 y1 ≤ extent x0 x1
    then (x0 + k, y0 + lineDir y0 y1 * lineRise (extent x0 x1) (extent y0 y1) k)
    else (x0 + lineRise (extent y0 y1) (extent x0 x1) k, y0 + lineDir y0 y1 * k)

/-- The number of steps of a line. -/
def lineSteps (x0 y0 x1 y1 : Int) : Nat := (max (extent x0 x1) (extent y0 y1)).toNat

/-- What a line that runs toward +x is after the three transforms, in the four octants (42_line.md R122). -/
theorem lineNormalize_of_lt {x0 x1 : Int} (y0 y1 : Int) (hx : x0 < x1) : lineNormalize x0 y0 x1 y1 =
    if y1 < y0 then
      (if x1 - x0 < y0 - y1 then ⟨-y0, x0, -y1, x1, true, true⟩ else ⟨x0, -y0, x1, -y1, true, false⟩)
    else
      (if x1 - x0 < y1 - y0 then ⟨y0, x0, y1, x1, false, true⟩ else ⟨x0, y0, x1, y1, false, false⟩) := by
  have hneg : -y1 - -y0 = y0 - y1 := by omega
  have hexchange : lineExchange ⟨x0, y0, x1, y1, false, false⟩ = ⟨x0, y0, x1, y1, false, false⟩ :=
    if_neg (by dsimp only; omega)
  rw [lineNormalize, hexchange]
  by_cases hy : y1 < y0
  · simp [lineReflect, lineSwap, hy, hneg]
  · simp [lineReflect, lineSwap, hy]

/-- The emitted points of a normalised line in the closed form of the recurrence. -/
theorem map_lineRun {l : LineSetup} (h : l.FirstOctant) (f : Int → Int → Point) :
    (lineRun l).map (fun q => f q.x q.y) = (List.range ((l.x1 - l.x0).toNat + 1)).map
      (fun k : Nat => f (l.x0 + k) (l.y0 + lineRise (l.x1 - l.x0) (l.y1 - l.y0) k)) := by
  obtain ⟨hdx, hdy, hslope⟩ := h
  rw [lineRun, ← lineAt_zero l.x0 l.y0 hdx, lineFrom_lineAt l.x0 l.y0 hdy hslope hdx, List.map_map]
  simp [Function.comp_def, lineAt, lineRise]

theorem slantedPoints_eq_map {x0 y0 x1 y1 : Int} (hx : x0 < x1) (hy : y0 ≠ y1) : slantedPoints x0 y0 x1 y1 =
    (List.range (lineSteps x0 y0 x1 y1 + 1)).map (lineStepAt x0 y0 x1 y1) := by
  have hoct := firstOctant_lineNormalize y0 y1 hx.ne
  have hex : extent x0 x1 = x1 - x0 := extent_of_le hx.le
  simp only [slantedPoints, map_lineRun hoct]
  rw [lineNormalize_of_lt y0 y1 hx]
  unfold lineSteps lineStepAt lineDir
  rw [hex]
  rcases lt_or_gt_of_ne hy with hup | hdown
  · have hey : extent y0 y1 = y1 - y0 := extent_of_le hup.le
    by_cases hsteep : x1 - x0 < y1 - y0
    · simp [hup, hup.not_gt, hsteep, hsteep.not_ge, hsteep.le, hey, lineEmit]
    · simp [hup, hup.not_gt, hsteep, not_lt.1 hsteep, hey, lineEmit]
  · have hey : extent y0 y1 = y0 - y1 := by rw [extent_comm, extent_of_le hdown.le]
    have hneg : -y1 - -y0 = y0 - y1 := by omega
    by_cases hsteep : x1 - x0 < y0 - y1
    · simpa [hdown, hdown.not_gt, hsteep, hsteep.not_ge, hsteep.le, hey, hneg, lineEmit] using fun _ _ => add_comm _ _
    · simpa [hdown, hdown.not_gt, hsteep, not_lt.1 hsteep, hey, hneg, lineEmit] using fun _ _ => add_comm _ _

/-- Every forward line is its closed form, step by step: slanted, horizontal or vertical. -/
theorem linePixels_eq_map {x0 y0 x1 y1 : Int} (h : LineForward x0 y0 x1 y1) : linePixels x0 y0 x1 y1 =
    (List.range (lineSteps x0 y0 x1 y1 + 1)).map (lineStepAt x0 y0 x1 y1) := by
  by_cases hy : y0 = y1
  · subst hy
    have hx : x0 ≤ x1 := by unfold LineForward at h; omega
    have hex : extent x0 x1 = x1 - x0 := extent_of_le hx
    have hcount : (x1 - x0 + 1).toNat = (x1 - x0).toNat + 1 := by omega
    simp [linePixels_horizontal, intRange, lineSteps, lineStepAt, extent_self, hex, hx, hcount,
      lineRise_level (sub_nonneg.2 hx)]
  · rcases h with hx | ⟨rfl, hup⟩
    · rw [linePixels_slanted hx.ne hy, slantedPoints_eq_map hx hy]
    · have hlt : y0 < y1 := by omega
      have hey : extent y0 y1 = y1 - y0 := extent_of_le hup
      have hcount : (y1 - y0 + 1).toNat = (y1 - y0).toNat + 1 := by omega
      simp [linePixels_vertical x0 hy, intRange, lineSteps, lineStepAt, lineDir, extent_self, hey, hup, hlt, hlt.not_ge,
        hcount, lineRise_level (sub_nonneg.2 hup)]

/-! ## Which points a line run toward +x has -/

section ClosedForm
variable {x0 y0 x1 y1 : Int} (hx : x0 < x1) {a b : Int}
include hx

theorem mem_linePixels_flat (hflat : extent y0 y1 ≤ extent x0 x1) : (a, b) ∈ linePixels x0 y0 x1 y1 ↔
    x0 ≤ a ∧ a ≤ x1 ∧ b = y0 + lineDir y0 y1 * lineRise (extent x0 x1) (extent y0 y1) (a - x0) := by
  have hsteps : (lineSteps x0 y0 x1 y1 : Int) = x1 - x0 := by unfold lineSteps; unfold extent at *; omega
  simp only [linePixels_eq_map (.inl hx), List.mem_map, List.mem_range, lineStepAt, if_pos hflat, Prod.mk.injEq]
  constructor
  · rintro ⟨k, hk, rfl, rfl⟩
    exact ⟨by omega, by omega, by rw [add_sub_cancel_left]⟩
  · rintro ⟨ha, ha', rfl⟩
    refine ⟨(a - x0).toNat, by omega, by omega, ?_⟩
    rw [Int.toNat_of_nonneg (by omega)]

theorem mem_linePixels_steep (hsteep : extent x0 x1 < extent y0 y1) : (a, b) ∈ linePixels x0 y0 x1 y1 ↔
    min y0 y1 ≤ b ∧ b ≤ max y0 y1 ∧ a = x0 + lineRise (extent y0 y1) (extent x0 x1) (extent y0 b) := by
  have hsteps : (lineSteps x0 y0 x1 y1 : Int) = extent y0 y1 := by unfold lineSteps; unfold extent at *; omega
  simp only [linePixels_eq_map (.inl hx), List.mem_map, List.mem_range, lineStepAt, if_neg hsteep.not_ge,
    Prod.mk.injEq]
  constructor
  · rintro ⟨k, hk, rfl, rfl⟩
    have hway : extent y0 (y0 + lineDir y0 y1 * k) = k := by unfold extent lineDir; split <;> omega
    rw [hway]
    refine ⟨?_, ?_, rfl⟩ <;> unfold extent at hsteps <;> unfold lineDir <;> split <;> omega
  · rintro ⟨hb, hb', rfl⟩
    have hway : ((extent y0 b).toNat : Int) = extent y0 b := Int.toNat_of_nonneg (extent_nonneg y0 b)
    refine ⟨(extent y0 b).toNat, ?_, by rw [hway], ?_⟩
    · unfold extent at *; omega
    · rw [hway]; unfold extent lineDir; split <;> omega

end ClosedForm

/-- Settles O39: the flat and the steep case of the closed form; the direction is that of the statement's own case
split. -/
theorem slantedLineClosedForm : Obligations.SlantedLineClosedForm := by
  intro x0 y0 x1 y1 hx hy a b dx dy
  have hdx : extent x0 x1 = dx := extent_of_le hx.le
  have hdy : extent y0 y1 = dy := rfl
  by_cases hflat : dy ≤ dx
  · rw [if_pos hflat, mem_linePixels_flat hx (by omega), hdx, hdy, lineRise, lineDir]
    by_cases hup : y0 < y1
    · simp only [if_pos hup, one_mul]
    · simp only [if_neg hup, neg_one_mul, ← sub_eq_add_neg]
  · rw [if_neg hflat, mem_linePixels_steep hx (by omega), hdx, hdy]
    rfl

/-! ## The ends and the number of points -/

theorem lineStepAt_zero (x0 y0 x1 y1 : Int) : lineStepAt x0 y0 x1 y1 0 = (x0, y0) := by
  simp [lineStepAt, lineRise_start (extent_nonneg _ _)]

/-- The last step of a forward line reaches its other end. -/
theorem lineStepAt_lineSteps {x0 y0 x1 y1 : Int} (h : LineForward x0 y0 x1 y1) :
    lineStepAt x0 y0 x1 y1 (lineSteps x0 y0 x1 y1) = (x1, y1) := by
  have hx : x0 + extent x0 x1 = x1 := by unfold LineForward at h; unfold extent; omega
  have hy : y0 + lineDir y0 y1 * extent y0 y1 = y1 := by unfold extent lineDir; split <;> omega
  have hnonneg := extent_nonneg x0 x1
  have hnonneg' := extent_nonneg y0 y1
  rw [lineStepAt]
  split
  · rename_i hflat
    have hsteps : (lineSteps x0 y0 x1 y1 : Int) = extent x0 x1 := by unfold lineSteps; omega
    rw [hsteps, lineRise_end hnonneg' hflat, hx, hy]
  · rename_i hsteep
    have hsteps : (lineSteps x0 y0 x1 y1 : Int) = extent y0 y1 := by unfold lineSteps; omega
    rw [hsteps, lineRise_end hnonneg (by omega), hx, hy]

/-- The count and the two ends of a forward line. -/
theorem count_and_ends_of_forward {x0 y0 x1 y1 : Int} (h : LineForward x0 y0 x1 y1) :
    ((linePixels x0 y0 x1 y1).length : Int) = max (extent x0 x1) (extent y0 y1) + 1 ∧
    (x0, y0) ∈ linePixels x0 y0 x1 y1 ∧ (x1, y1) ∈ linePixels x0 y0 x1 y1 := by
  have hnonneg := extent_nonneg x0 x1
  rw [linePixels_eq_map h]
  refine ⟨?_, List.mem_map.2 ⟨0, by simp, lineStepAt_zero x0 y0 x1 y1⟩,
    List.mem_map.2 ⟨lineSteps x0 y0 x1 y1, by simp, lineStepAt_lineSteps h⟩⟩
  rw [List.length_map, List.length_range, lineSteps]
  omega

/-- Settles O40: one of the two orders of the ends is forward, and both give the same list. -/
theorem lineCountAndEnds : Obligations.LineCountAndEnds := by
  intro x0 y0 x1 y1
  rcases lineForward_total x0 y0 x1 y1 with h | h
  · exact count_and_ends_of_forward h
  · obtain ⟨hcount, hfirst, hlast⟩ := count_and_ends_of_forward h
    rw [extent_comm x1, extent_comm y1] at hcount
    rw [linePixels_comm x0]
    exact ⟨hcount, hlast, hfirst⟩

/-! ## Consecutive points -/

/-- From one point of a line with extents `ex` and `ey` to the next: 1 in the major coordinate, at most 1 in the minor
(42_line.md R123 (b)). -/
def LineAdjacent (ex ey : Int) (q q' : Point) : Prop :=
  if ey ≤ ex
    then (q'.1 = q.1 + 1 ∨ q'.1 = q.1 - 1) ∧ q.2 - 1 ≤ q'.2 ∧ q'.2 ≤ q.2 + 1
    else (q'.2 = q.2 + 1 ∨ q'.2 = q.2 - 1) ∧ q.1 - 1 ≤ q'.1 ∧ q'.1 ≤ q.1 + 1

theorem lineAdjacent_lineStepAt (x0 y0 x1 y1 : Int) (k : Nat) : LineAdjacent (extent x0 x1) (extent y0 y1)
    (lineStepAt x0 y0 x1 y1 k) (lineStepAt x0 y0 x1 y1 (k + 1)) := by
  have hdir : lineDir y0 y1 = 1 ∨ lineDir y0 y1 = -1 := by unfold lineDir; split <;> simp
  unfold LineAdjacent lineStepAt
  by_cases hflat : extent y0 y1 ≤ extent x0 x1
  · obtain ⟨hrise, hrise'⟩ := lineRise_succ (extent_nonneg y0 y1) hflat k
    simp only [if_pos hflat]
    push_cast
    rcases hdir with hd | hd <;> rw [hd] <;> omega
  · obtain ⟨hrise, hrise'⟩ := lineRise_succ (extent_nonneg x0 x1) (le_of_not_ge hflat) k
    simp only [if_neg hflat]
    push_cast
    rcases hdir with hd | hd <;> rw [hd] <;> omega

theorem isChain_of_forward {x0 y0 x1 y1 : Int} (h : LineForward x0 y0 x1 y1) :
    List.IsChain (LineAdjacent (extent x0 x1) (extent y0 y1)) (linePixels x0 y0 x1 y1) := by
  rw [linePixels_eq_map h, List.isChain_map, List.isChain_range_succ]
  exact fun k _ => lineAdjacent_lineStepAt x0 y0 x1 y1 k

/-- Settles O41: one of the two orders of the ends is forward; the list and the extents are the same in both. -/
theorem lineIsConnected : Obligations.LineIsConnected := by
  intro x0 y0 x1 y1
  rcases lineForward_total x0 y0 x1 y1 with h | h
  · exact isChain_of_forward h
  · have hchain := isChain_of_forward h
    rw [linePixels_comm, extent_comm x1, extent_comm y1] at hchain
    exact hchain

end Sys2Proof.Machine
end

section
/-! The octant sequence of a circle (43_circle.md R131): the settling of O44 and O45. -/

namespace Sys2Proof.Machine

/-! ## The loop -/

theorem octFrom_of_lt {q : OctPoint} (h : q.x < q.y) (n : Nat) : octFrom (n + 1) q = q :: octFrom n (octNext q) :=
  if_pos h

theorem octFrom_of_ge {q : OctPoint} (h : q.y ≤ q.x) (n : Nat) : octFrom n q = [q] := by
  cases n with
  | zero => rfl
  | succ n => exact if_neg (not_lt.2 h)

@[simp] theorem octNext_x (q : OctPoint) : (octNext q).x = q.x + 1 := by
  unfold octNext
  dsimp only
  split <;> rfl

theorem octNext_east {q : OctPoint} (h : q.d < 0) : octNext q = ⟨q.x + 1, q.y, q.d + 2 * (q.x + 1) + 1⟩ := if_pos h

theorem octNext_southEast {q : OctPoint} (h : 0 ≤ q.d) :
    octNext q = ⟨q.x + 1, q.y - 1, q.d + 2 * (q.x + 1 - (q.y - 1)) + 1⟩ := if_neg (not_lt.2 h)

/-- A step keeps y or lowers it by 1. -/
theorem octNext_y (q : OctPoint) : q.y - 1 ≤ (octNext q).y ∧ (octNext q).y ≤ q.y := by
  rcases lt_or_ge q.d 0 with h | h
  · rw [octNext_east h]; dsimp only; omega
  · rw [octNext_southEast h]; dsimp only; omega

/-- Consecutive points of the sequence are a point with `x < y` and its next point. -/
theorem octFrom_isChain (n : Nat) (q : OctPoint) :
    List.IsChain (fun q q' : OctPoint => q.x < q.y ∧ q' = octNext q) (octFrom n q) := by
  induction n generalizing q with
  | zero => exact .singleton q
  | succ n ih =>
    rcases lt_or_ge q.x q.y with h | h
    · rw [octFrom_of_lt h, List.isChain_cons]
      refine ⟨fun q' hq' => ⟨h, ?_⟩, ih (octNext q)⟩
      rw [octFrom_head] at hq'
      exact (Option.mem_some.1 hq').symm
    · rw [octFrom_of_ge h]
      exact .singleton q

/-- Each step lowers `y - x`, so a bound of `y - x` steps never ends the loop (log entry 10). -/
theorem octFrom_getLast {n : Nat} {q : OctPoint} (hn : q.y - q.x ≤ n) :
    ∃ p, (octFrom n q).getLast? = some p ∧ p.y ≤ p.x := by
  induction n generalizing q with
  | zero => exact ⟨q, rfl, by omega⟩
  | succ n ih =>
    rcases lt_or_ge q.x q.y with h | h
    · obtain ⟨-, hy⟩ := octNext_y q
      obtain ⟨p, hp, hend⟩ := ih (q := octNext q) (by rw [octNext_x]; omega)
      exact ⟨p, by rw [octFrom_of_lt h, List.getLast?_cons, hp]; rfl, hend⟩
    · exact ⟨q, by rw [octFrom_of_ge h]; rfl, h⟩

/-- Settles O44: the chain of `octNext` from `octFrom_isChain`, with its two cases written out. -/
theorem octantSequence : Obligations.OctantSequence := by
  intro r
  refine ⟨octFrom_head _ _, octFrom_getLast (by dsimp only; omega), (octFrom_isChain _ _).imp ?_⟩
  rintro q _ ⟨hlt, rfl⟩
  refine ⟨hlt, octNext_x q, fun hd => ?_, fun hd => ?_⟩
  · rw [octNext_east hd]; exact ⟨rfl, rfl⟩
  · rw [octNext_southEast hd]; exact ⟨rfl, rfl⟩

/-! ## The invariant -/

/-- What every point of the octant sequence of radius `r` has: the midpoint identity and the octant's box
(43_circle.md R131). -/
structure OctPoint.OnOctant (r : Nat) (q : OctPoint) : Prop where
  decision : q.d = (q.x + 1) ^ 2 + (q.y ^ 2 - q.y) - (r : Int) ^ 2
  x_nonneg : 0 ≤ q.x
  x_le : q.x ≤ r
  y_nonneg : 0 ≤ q.y
  y_le : q.y ≤ r
  x_le_y : q.x ≤ q.y + 1

theorem onOctant_start (r : Nat) : OctPoint.OnOctant r ⟨0, r, 1 - r⟩ where
  decision := by ring
  x_nonneg := le_rfl
  x_le := Int.natCast_nonneg r
  y_nonneg := Int.natCast_nonneg r
  y_le := le_rfl
  x_le_y := by dsimp only; omega

/-- The step's increment of d is the difference of the midpoint values of the two points (43_circle.md R131). -/
theorem octNext_decision {r : Nat} {q : OctPoint} (h : q.d = (q.x + 1) ^ 2 + (q.y ^ 2 - q.y) - (r : Int) ^ 2) :
    (octNext q).d = ((octNext q).x + 1) ^ 2 + ((octNext q).y ^ 2 - (octNext q).y) - (r : Int) ^ 2 := by
  rcases lt_or_ge q.d 0 with hd | hd
  · rw [octNext_east hd]; dsimp only; rw [h]; ring
  · rw [octNext_southEast hd]; dsimp only; rw [h]; ring

theorem onOctant_octNext {r : Nat} {q : OctPoint} (hlt : q.x < q.y) (hq : q.OnOctant r) : (octNext q).OnOctant r := by
  obtain ⟨hd, hx, hxr, hy, hyr, hxy⟩ := hq
  obtain ⟨hlow, hhigh⟩ := octNext_y q
  have hnext := octNext_x q
  exact ⟨octNext_decision hd, by omega, by omega, by omega, by omega, by omega⟩

theorem onOctant_of_mem_oct {r : Nat} {q : OctPoint} (hq : q ∈ oct r) : q.OnOctant r :=
  octFrom_invariant (fun _ => onOctant_octNext) (onOctant_start r) q hq

/-- Settles O45: the invariant holds at the start and every step keeps it. -/
theorem octantDecisionIdentity : Obligations.OctantDecisionIdentity := by
  intro r q hq
  obtain ⟨hd, hx, hxr, hy, hyr, hxy⟩ := onOctant_of_mem_oct hq
  exact ⟨hd, hx, hxr, hy, hyr, hxy⟩

end Sys2Proof.Machine
end

section
/-! The circle's outline and disc as pixels of the framebuffer (43_circle.md R130 to R133): the settling of O46, O47 and
O48. -/

namespace Sys2Proof.Machine

/-! ## A command that plots a list of points -/

/-- A command that plots a list of points has the drawing frame, sets exactly the in-bounds points of the list, and
leaves every byte that holds none of them. -/
theorem sets_points_of_plots {i : Instr} {s : State} (hs : s.MemoriesOk) {ps : List Point}
    (h : exec i s = .next (s.drawn (plotAll s.fb ps))) : ∃ t, exec i s = .next t ∧ s.Drew t ∧
      (∀ a b, inBounds a b = true → t.pixel a b = (s.pixel a b || decide ((a, b) ∈ ps))) ∧
      (∀ p c, byteInBounds p c = true → (∀ k : Nat, k < 8 → (c, 8 * p + (k : Int)) ∉ ps) →
        t.fbByte p c = s.fbByte p c) :=
  ⟨_, h, drew_drawn s _, fun _ _ hab => testPixel_plotAll hs.1 ps hab,
    fun _ _ hpc hps => fbRead_plotAll_of_not_mem hs.1 hpc hps⟩

/-! ## The mirror points -/

theorem mem_mirror8 {cx cy x y a b : Int} : (a, b) ∈ mirror8 cx cy x y ↔
    ((a = cx + x ∨ a = cx - x) ∧ (b = cy + y ∨ b = cy - y)) ∨
    ((a = cx + y ∨ a = cx - y) ∧ (b = cy + x ∨ b = cy - x)) := by
  simp only [mirror8, List.mem_cons, Prod.mk.injEq, List.not_mem_nil, or_false]
  tauto

/-- Settles O46: CIRC plots the mirror points of the octant sequence. -/
theorem circPlotsTheOctants : Obligations.CircPlotsTheOctants := by
  intro s x y r hs
  obtain ⟨t, hexec, hdrew, hpixel, hbyte⟩ := sets_points_of_plots hs (exec_circ s x y r)
  refine ⟨t, hexec, hdrew, fun a b hab => ?_, fun p c hpc hps => ?_⟩
  · simp only [hpixel a b hab, Bool.or_eq_true, decide_eq_true_iff, List.mem_flatMap, mem_mirror8]
  · refine hbyte p c hpc fun k hk hmem => ?_
    obtain ⟨q, hq, hmem⟩ := List.mem_flatMap.1 hmem
    exact hps q hq k hk hmem

/-- Settles O47: CIRCF plots the mirror points and the four spans of the octant sequence. -/
theorem circfPlotsOctantsAndSpans : Obligations.CircfPlotsOctantsAndSpans := by
  intro s x y r hs
  obtain ⟨t, hexec, hdrew, hpixel, hbyte⟩ := sets_points_of_plots hs (exec_circf s x y r)
  refine ⟨t, hexec, hdrew, fun a b hab => ?_, fun p c hpc hps => ?_⟩
  · simp only [hpixel a b hab, Bool.or_eq_true, decide_eq_true_iff, List.mem_flatMap, mem_fillPoints8, mem_mirror8,
      or_assoc]
  · refine hbyte p c hpc fun k hk hmem => ?_
    obtain ⟨q, hq, hmem⟩ := List.mem_flatMap.1 hmem
    refine hps k hk q hq ?_
    simpa only [fillPoints8, List.append_assoc] using hmem

/-! ## Symmetry and extent -/

section Mirror8
variable {cx cy x y a b : Int}

theorem mem_mirror8_reflect_x : (2 * cx - a, b) ∈ mirror8 cx cy x y ↔ (a, b) ∈ mirror8 cx cy x y := by
  simp only [mem_mirror8]
  omega

theorem mem_mirror8_reflect_y : (a, 2 * cy - b) ∈ mirror8 cx cy x y ↔ (a, b) ∈ mirror8 cx cy x y := by
  simp only [mem_mirror8]
  omega

theorem mem_mirror8_transpose :
    (cx + (b - cy), cy + (a - cx)) ∈ mirror8 cx cy x y ↔ (a, b) ∈ mirror8 cx cy x y := by
  simp only [mem_mirror8]
  omega

end Mirror8

theorem start_mem_oct (r : Nat) : ⟨0, r, 1 - r⟩ ∈ oct r := List.mem_of_mem_head? (octFrom_head _ _)

/-- Settles O48: each set of mirror points has the three symmetries, the start gives the extremes, and the octant's box
bounds the rest. -/
theorem circleIsSymmetric : Obligations.CircleIsSymmetric := by
  intro x y r a b on
  have hextreme : ∀ {a b : Int}, (a, b) ∈ mirror8 x y 0 r → on a b := fun h => ⟨_, start_mem_oct r, h⟩
  refine ⟨?_, ?_, ?_, hextreme ?_, hextreme ?_, hextreme ?_, hextreme ?_, ?_⟩
  · simp only [on, mem_mirror8_reflect_x]
  · simp only [on, mem_mirror8_reflect_y]
  · simp only [on, mem_mirror8_transpose]
  · simp [mem_mirror8]
  · simp [mem_mirror8]
  · simp [mem_mirror8]
  · simp [mem_mirror8]
  · rintro ⟨q, hq, hmem⟩
    obtain ⟨-, hx, hxr, hy, hyr, -⟩ := onOctant_of_mem_oct hq
    rw [mem_mirror8] at hmem
    omega

end Sys2Proof.Machine
end

section
/-! The circles of radius 0 and 1 (43_circle.md R134): the settling of O49. -/

namespace Sys2Proof.Machine

theorem oct_zero : oct 0 = [⟨0, 0, 1⟩] := rfl

theorem oct_one : oct 1 = [⟨0, 1, 0⟩, ⟨1, 0, 3⟩] := rfl

/-- A command that plots a list of points sets the in-bounds pixels with any property that says membership in the
list. -/
theorem pixel_of_plots {i : Instr} {s : State} (hs : s.MemoriesOk) {ps : List Point}
    (h : exec i s = .next (s.drawn (plotAll s.fb ps))) {P : Int → Int → Prop} [∀ a b, Decidable (P a b)]
    (hP : ∀ a b, (a, b) ∈ ps ↔ P a b) :
    ∃ t, exec i s = .next t ∧ ∀ a b, inBounds a b = true → t.pixel a b = (s.pixel a b || decide (P a b)) := by
  obtain ⟨t, hexec, -, hpixel, -⟩ := sets_points_of_plots hs h
  exact ⟨t, hexec, fun a b hab => by rw [hpixel a b hab, decide_eq_decide.2 (hP a b)]⟩

/-- Settles O49: the sequences have one and two points, whose mirror points and spans are written out. -/
theorem smallCircles : Obligations.SmallCircles := by
  intro s x y hs
  simp only [List.forall_mem_cons]
  refine ⟨⟨pixel_of_plots hs (exec_circ s x y 0) fun a b => ?_,
    pixel_of_plots hs (exec_circf s x y 0) fun a b => ?_, nofun⟩,
    pixel_of_plots hs (exec_circ s x y 1) fun a b => ?_,
    pixel_of_plots hs (exec_circf s x y 1) fun a b => ?_⟩
  · simp only [oct_zero, List.flatMap_singleton, mem_mirror8]
    omega
  · simp only [oct_zero, List.flatMap_singleton, mem_fillPoints8, mem_mirror8]
    omega
  · simp only [oct_one, List.flatMap_cons, List.flatMap_nil, List.append_nil, List.mem_append, mem_mirror8]
    omega
  · simp only [oct_one, List.flatMap_cons, List.flatMap_nil, List.append_nil, List.mem_append, mem_fillPoints8,
      mem_mirror8]
    omega

end Sys2Proof.Machine
end

section
/-! The outline lies inside the filled figure (43_circle.md R133 (a), 44_ellipse.md R147 (a)): the settling of O55. -/

namespace Sys2Proof.Machine

/-- A command that plots some of the points of another sets only pixels that the other sets. -/
theorem pixel_imp_of_plots_subset {i j : Instr} {s : State} (hs : s.MemoriesOk) {ps qs : List Point} (hsub : ps ⊆ qs)
    (hi : exec i s = .next (s.drawn (plotAll s.fb ps))) (hj : exec j s = .next (s.drawn (plotAll s.fb qs))) :
    ∃ t u, exec i s = .next t ∧ exec j s = .next u ∧ ∀ a b, t.pixel a b = true → u.pixel a b = true := by
  refine ⟨_, _, hi, hj, fun a b hset => ?_⟩
  have hab : inBounds a b = true := inBounds_of_testPixel hset
  simp only [State.pixel, State.drawn_fb, testPixel_plotAll hs.1 _ hab, Bool.or_eq_true, decide_eq_true_iff] at hset ⊢
  exact hset.imp_right (hsub ·)

theorem mirror8_sublist_fillPoints8 (cx cy : Int) (q : OctPoint) :
    (mirror8 cx cy q.x q.y).Sublist (fillPoints8 cx cy q) := List.sublist_append_left _ _

theorem mirror4_sublist_fillPoints4 (cx cy : Int) (q : Point) :
    (mirror4 cx cy q.1 q.2).Sublist (fillPoints4 cx cy q) := List.sublist_append_left _ _

/-- Settles O55: each step of a filled figure plots the mirror points its outline plots. -/
theorem outlineInsideFilled : Obligations.OutlineInsideFilled := by
  intro s x y m n hs
  have hcirc := List.Sublist.flatMap_right (oct m) fun q _ => mirror8_sublist_fillPoints8 x y q
  have helps := List.Sublist.flatMap_right (ellWalk m n) fun q _ => mirror4_sublist_fillPoints4 x y q
  simp only [List.forall_mem_cons]
  exact ⟨pixel_imp_of_plots_subset hs hcirc.subset (exec_circ s x y m) (exec_circf s x y m),
    pixel_imp_of_plots_subset hs helps.subset (exec_elps s x y m n) (exec_elpsf s x y m n), nofun⟩

end Sys2Proof.Machine
end

section
/-! The decision values of the ellipse (44_ellipse.md R141): the settling of O50. -/

namespace Sys2Proof.Machine

/-- Settles O50: both sides are polynomials over the rationals; the halves of the midpoints cancel against the 4. -/
theorem ellipseDecisionForms : Obligations.EllipseDecisionForms := by
  intro a b x y F
  constructor
  · simp only [ellD1, F]
    push_cast
    ring
  · simp only [ellD2, F]
    push_cast
    ring

end Sys2Proof.Machine
end

section
/-! The ellipse walk (44_ellipse.md R140, R142): the settling of O51. -/

namespace Sys2Proof.Machine

/-! ## One step -/

theorem two_mul_mul_self_nonneg (b : Int) : 0 ≤ 2 * (b * b) := mul_nonneg zero_le_two (mul_self_nonneg b)

section Step
variable {a b : Int} {q : Point}

theorem inRegion1_iff {x y : Int} : inRegion1 a b x y = true ↔ 2 * (b * b) * (x + 1) < a * a * (2 * y - 1) :=
  decide_eq_true_iff

theorem inRegion1_eq_false_iff {x y : Int} :
    inRegion1 a b x y = false ↔ a * a * (2 * y - 1) ≤ 2 * (b * b) * (x + 1) :=
  decide_eq_false_iff_not.trans not_lt

theorem ellStep1_east (h : ellD1 a b q.1 q.2 < 0) : ellStep1 a b q = (q.1 + 1, q.2) := if_pos h

theorem ellStep1_southEast (h : 0 ≤ ellD1 a b q.1 q.2) : ellStep1 a b q = (q.1 + 1, q.2 - 1) := if_neg (not_lt.2 h)

theorem ellStep2_southEast (h : ellD2 a b q.1 q.2 < 0) : ellStep2 a b q = (q.1 + 1, q.2 - 1) := if_pos h

theorem ellStep2_south (h : 0 ≤ ellD2 a b q.1 q.2) : ellStep2 a b q = (q.1, q.2 - 1) := if_neg (not_lt.2 h)

variable (a b q)

@[simp] theorem ellStep1_x : (ellStep1 a b q).1 = q.1 + 1 := by
  unfold ellStep1
  split <;> rfl

/-- A region-1 step keeps y or lowers it by 1. -/
theorem ellStep1_y : q.2 - 1 ≤ (ellStep1 a b q).2 ∧ (ellStep1 a b q).2 ≤ q.2 := by
  rcases lt_or_ge (ellD1 a b q.1 q.2) 0 with h | h
  · rw [ellStep1_east h]; dsimp only; omega
  · rw [ellStep1_southEast h]; dsimp only; omega

/-- A region-2 step raises x by 1 or keeps it. -/
theorem le_ellStep2_x : q.1 ≤ (ellStep2 a b q).1 := by
  rcases lt_or_ge (ellD2 a b q.1 q.2) 0 with h | h
  · rw [ellStep2_southEast h]; dsimp only; omega
  · rw [ellStep2_south h]

@[simp] theorem ellStep2_y : (ellStep2 a b q).2 = q.2 - 1 := by
  unfold ellStep2
  split <;> rfl

variable {a b q}

/-- Right of the y axis the region-1 test holds above the x axis only. -/
theorem pos_of_inRegion1 (h : inRegion1 a b q.1 q.2 = true) (hx : 0 ≤ q.1) : 0 < q.2 := by
  rw [inRegion1_iff] at h
  by_contra hy
  have hleft : 0 ≤ 2 * (b * b) * (q.1 + 1) := mul_nonneg (two_mul_mul_self_nonneg b) (by omega)
  have hright : a * a * (2 * q.2 - 1) ≤ 0 := mul_nonpos_of_nonneg_of_nonpos (mul_self_nonneg a) (by omega)
  omega

/-- No point at height `b` or lower with x at `a a b` or beyond is in region 1 (log entry 10). -/
theorem x_lt_of_inRegion1 (h : inRegion1 a b q.1 q.2 = true) (hx : 0 ≤ q.1) (hyb : q.2 ≤ b) : q.1 < a * a * b := by
  have hb : 0 < b := (pos_of_inRegion1 h hx).trans_le hyb
  rw [inRegion1_iff] at h
  have hone : 1 * (q.1 + 1) ≤ b * b * (q.1 + 1) := mul_le_mul_of_nonneg_right (mul_pos hb hb) (by omega)
  have hheight : a * a * (2 * q.2 - 1) ≤ a * a * (2 * b) := mul_le_mul_of_nonneg_left (by omega) (mul_self_nonneg a)
  linarith

/-- Region 2 is never left: its steps do not lower x and lower y. -/
theorem inRegion1_ellStep2 (h : inRegion1 a b q.1 q.2 = false) :
    inRegion1 a b (ellStep2 a b q).1 (ellStep2 a b q).2 = false := by
  rw [inRegion1_eq_false_iff] at h ⊢
  have hx := le_ellStep2_x a b q
  have hy := ellStep2_y a b q
  calc a * a * (2 * (ellStep2 a b q).2 - 1)
      ≤ a * a * (2 * q.2 - 1) := mul_le_mul_of_nonneg_left (by omega) (mul_self_nonneg a)
    _ ≤ 2 * (b * b) * (q.1 + 1) := h
    _ ≤ 2 * (b * b) * ((ellStep2 a b q).1 + 1) := mul_le_mul_of_nonneg_left (by omega) (two_mul_mul_self_nonneg b)

end Step

/-- The point after `q` in the walk: region 1's while its test holds, then region 2's while y is positive
(44_ellipse.md R140). -/
inductive EllStep (a b : Int) (q : Point) : Point → Prop
  | region1 (h : inRegion1 a b q.1 q.2 = true) : EllStep a b q (ellStep1 a b q)
  | region2 (h : inRegion1 a b q.1 q.2 = false) (hy : 0 < q.2) : EllStep a b q (ellStep2 a b q)

/-! ## The two loops -/

section Loops
variable {a b : Int} {q : Point}

theorem ellRegion1_of_in (h : inRegion1 a b q.1 q.2 = true) (n : Nat) :
    ellRegion1 a b (n + 1) q = q :: ellRegion1 a b n (ellStep1 a b q) := if_pos h

theorem ellRegion1_of_out (h : inRegion1 a b q.1 q.2 = false) (n : Nat) : ellRegion1 a b n q = [q] := by
  cases n with
  | zero => rfl
  | succ n => exact if_neg (Bool.eq_false_iff.1 h)

theorem ellRegion2_of_pos (h : 0 < q.2) (n : Nat) :
    ellRegion2 a b (n + 1) q = ellStep2 a b q :: ellRegion2 a b n (ellStep2 a b q) := if_pos h

theorem ellRegion1_isChain (n : Nat) (q : Point) : List.IsChain (EllStep a b) (ellRegion1 a b n q) := by
  induction n generalizing q with
  | zero => exact .singleton q
  | succ n ih =>
    cases h : inRegion1 a b q.1 q.2 with
    | true =>
      rw [ellRegion1_of_in h, List.isChain_cons]
      refine ⟨fun q' hq' => ?_, ih _⟩
      rw [ellRegion1_head] at hq'
      exact Option.mem_some.1 hq' ▸ .region1 h
    | false =>
      rw [ellRegion1_of_out h]
      exact .singleton q

/-- Each step raises x, so a bound of `a a b - x` steps never ends the loop of region 1 (log entry 10). -/
theorem ellRegion1_getLast {n : Nat} (hx : 0 ≤ q.1) (hy : 0 ≤ q.2) (hyb : q.2 ≤ b) (hn : a * a * b - q.1 ≤ n) :
    ∃ p, (ellRegion1 a b n q).getLast? = some p ∧ inRegion1 a b p.1 p.2 = false ∧ 0 ≤ p.1 ∧ 0 ≤ p.2 := by
  induction n generalizing q with
  | zero =>
    refine ⟨q, rfl, Bool.eq_false_iff.2 fun h => ?_, hx, hy⟩
    have hlt := x_lt_of_inRegion1 h hx hyb
    omega
  | succ n ih =>
    cases h : inRegion1 a b q.1 q.2 with
    | true =>
      have hpos := pos_of_inRegion1 h hx
      have hnext := ellStep1_x a b q
      obtain ⟨hlow, hhigh⟩ := ellStep1_y a b q
      obtain ⟨p, hp, hend⟩ := ih (q := ellStep1 a b q) (by omega) (by omega) (by omega) (by omega)
      exact ⟨p, by rw [ellRegion1_of_in h, List.getLast?_cons, hp]; rfl, hend⟩
    | false => exact ⟨q, by rw [ellRegion1_of_out h]; rfl, h, hx, hy⟩

/-- Region 2 runs from the point region 1 ended at. -/
theorem ellRegion2_isChain (h : inRegion1 a b q.1 q.2 = false) (n : Nat) :
    List.IsChain (EllStep a b) (q :: ellRegion2 a b n q) := by
  induction n generalizing q with
  | zero => exact .singleton q
  | succ n ih =>
    rcases lt_or_ge 0 q.2 with hy | hy
    · rw [ellRegion2_of_pos hy, List.isChain_cons_cons]
      exact ⟨.region2 h hy, ih (inRegion1_ellStep2 h)⟩
    · rw [show ellRegion2 a b (n + 1) q = [] from if_neg (not_lt.2 hy)]
      exact .singleton q

/-- From height `n`, the `n` steps of region 2 end at height 0. -/
theorem ellRegion2_getLast {n : Nat} (hx : 0 ≤ q.1) (hn : q.2 = n) :
    ∃ x, (q :: ellRegion2 a b n q).getLast? = some (x, 0) ∧ 0 ≤ x := by
  induction n generalizing q with
  | zero => exact ⟨q.1, congrArg some (Prod.ext rfl hn), hx⟩
  | succ n ih =>
    have hstep := ellStep2_y a b q
    obtain ⟨x, hlast, hx'⟩ := ih (q := ellStep2 a b q) (hx.trans (le_ellStep2_x a b q)) (by omega)
    exact ⟨x, by rw [ellRegion2_of_pos (by omega), List.getLast?_cons, hlast]; rfl, hx'⟩

end Loops

/-! ## The walk -/

/-- The walk is region 1 and then region 2 from its last point `p`, which is outside region 1 and in the quadrant. -/
theorem ellWalk_eq_append (a b : Nat) : ∃ p : Point, (ellWalk1 a b).getLast? = some p ∧
    ellWalk a b = ellWalk1 a b ++ ellRegion2 a b p.2.toNat p ∧
    inRegion1 a b p.1 p.2 = false ∧ 0 ≤ p.1 ∧ 0 ≤ p.2 := by
  obtain ⟨p, hp, hend⟩ := ellRegion1_getLast (a := a) (b := b) (n := a * a * b) (q := (0, b)) le_rfl
    (Int.natCast_nonneg b) le_rfl (by push_cast; simp)
  refine ⟨p, hp, ?_, hend⟩
  have hlast : (ellWalk1 a b).getLastD (0, b) = p := by rw [List.getLastD_eq_getLast?, ellWalk1, hp]; rfl
  simp only [ellWalk, hlast]

theorem ellWalk_head (a b : Nat) : (ellWalk a b).head? = some (0, (b : Int)) := by
  rw [ellWalk, List.head?_append, ellWalk1, ellRegion1_head]
  rfl

/-- The walk ends on the x axis, right of the centre (44_ellipse.md R142). -/
theorem ellWalk_getLast (a b : Nat) : ∃ x : Int, (ellWalk a b).getLast? = some (x, 0) ∧ 0 ≤ x := by
  obtain ⟨p, hp, hwalk, -, hx, hy⟩ := ellWalk_eq_append a b
  obtain ⟨x, hlast, hx'⟩ := ellRegion2_getLast (a := a) (b := b) hx (Int.toNat_of_nonneg hy).symm
  refine ⟨x, ?_, hx'⟩
  rw [hwalk, List.getLast?_append, hp, ← hlast, List.getLast?_cons]
  cases (ellRegion2 a b p.2.toNat p).getLast? <;> rfl

theorem ellWalk_isChain (a b : Nat) : List.IsChain (EllStep a b) (ellWalk a b) := by
  obtain ⟨p, hp, hwalk, hout, -, -⟩ := ellWalk_eq_append a b
  obtain ⟨hjoin, hchain⟩ := List.isChain_cons.1 (ellRegion2_isChain hout p.2.toNat)
  rw [hwalk, List.isChain_append]
  refine ⟨ellRegion1_isChain _ _, hchain, fun q hq => ?_⟩
  obtain rfl : p = q := Option.mem_some.1 (hp ▸ hq)
  exact hjoin

/-- Settles O51: the chain of `EllStep`, with the two cases of each region written out. -/
theorem ellipseWalk : Obligations.EllipseWalk := by
  intro a b
  refine ⟨ellWalk_head a b, ellWalk_getLast a b, (ellWalk_isChain a b).imp fun q q' hstep => ?_⟩
  cases hstep with
  | region1 h =>
    rw [if_pos (inRegion1_iff.1 h)]
    exact ⟨ellStep1_east, ellStep1_southEast⟩
  | region2 h hy =>
    rw [if_neg (not_lt.2 (inRegion1_eq_false_iff.1 h))]
    exact ⟨hy, ellStep2_southEast, ellStep2_south⟩

end Sys2Proof.Machine
end

section
/-! The ellipse's outline and the filled ellipse as pixels of the framebuffer (44_ellipse.md R140, R143, R145): the
settling of O52 and O53. -/

namespace Sys2Proof.Machine

theorem mem_mirror4 {cx cy x y a b : Int} :
    (a, b) ∈ mirror4 cx cy x y ↔ (a = cx + x ∨ a = cx - x) ∧ (b = cy + y ∨ b = cy - y) := by
  simp only [mirror4, List.mem_cons, Prod.mk.injEq, List.not_mem_nil, or_false]
  tauto

/-- Settles O52: ELPS plots the mirror points of the walk. -/
theorem elpsPlotsTheWalk : Obligations.ElpsPlotsTheWalk := by
  intro s x y a b hs
  obtain ⟨t, hexec, hdrew, hpixel, hbyte⟩ := sets_points_of_plots hs (exec_elps s x y a b)
  refine ⟨t, hexec, hdrew, fun u v huv => ?_, fun p c hpc hps => ?_⟩
  · simp only [hpixel u v huv, Bool.or_eq_true, decide_eq_true_iff, List.mem_flatMap, mem_mirror4]
  · refine hbyte p c hpc fun k hk hmem => ?_
    obtain ⟨q, hq, hmem⟩ := List.mem_flatMap.1 hmem
    exact hps q hq k hk hmem

/-- Settles O53: ELPSF plots the mirror points and the two spans of the walk. -/
theorem elpsfPlotsWalkAndSpans : Obligations.ElpsfPlotsWalkAndSpans := by
  intro s x y a b hs
  obtain ⟨t, hexec, hdrew, hpixel, hbyte⟩ := sets_points_of_plots hs (exec_elpsf s x y a b)
  refine ⟨t, hexec, hdrew, fun u v huv => ?_, fun p c hpc hps => ?_⟩
  · simp only [hpixel u v huv, Bool.or_eq_true, decide_eq_true_iff, List.mem_flatMap, mem_fillPoints4, mem_mirror4]
  · refine hbyte p c hpc fun k hk hmem => ?_
    obtain ⟨q, hq, hmem⟩ := List.mem_flatMap.1 hmem
    refine hps k hk q hq ?_
    simpa only [fillPoints4, List.append_assoc] using hmem

end Sys2Proof.Machine
end

section
/-! The ellipses with a zero semi-axis (44_ellipse.md R144): the settling of O54. -/

namespace Sys2Proof.Machine

/-! ## Their walks -/

/-- With B = 0 the walk is its start: the region-1 test fails and y is 0. -/
theorem ellWalk_flat (a : Nat) : ellWalk a 0 = [(0, 0)] := rfl

/-- With A = 0 the decision value of region 2 is never negative. -/
theorem ellStep2_of_zero_width (b : Int) (q : Point) : ellStep2 0 b q = (q.1, q.2 - 1) := by
  refine ellStep2_south ?_
  have hD : ellD2 0 b q.1 q.2 = (b * (2 * q.1 + 1)) ^ 2 := by unfold ellD2; ring
  rw [hD]
  positivity

/-- With A = 0 region 2 goes straight down. -/
theorem mem_ellRegion2_of_zero_width {b x : Int} {n : Nat} {q : Point} :
    q ∈ ellRegion2 0 b n (x, n) ↔ q.1 = x ∧ 0 ≤ q.2 ∧ q.2 < n := by
  induction n with
  | zero =>
    simp only [ellRegion2, List.not_mem_nil, false_iff]
    omega
  | succ n ih =>
    have hdown : ellStep2 0 b (x, ((n + 1 : Nat) : Int)) = (x, (n : Int)) := by
      rw [ellStep2_of_zero_width]; simp
    rw [ellRegion2_of_pos (by dsimp only; omega), hdown, List.mem_cons, ih, Prod.ext_iff]
    dsimp only
    omega

/-- With A = 0 the walk is the run from (0, B) down to the centre. -/
theorem mem_ellWalk_of_zero_width {b : Nat} {q : Point} : q ∈ ellWalk 0 b ↔ q.1 = 0 ∧ 0 ≤ q.2 ∧ q.2 ≤ b := by
  have hstart : ellWalk1 0 b = [(0, (b : Int))] := by simp [ellWalk1, ellRegion1]
  have hwalk : ellWalk 0 b = (0, (b : Int)) :: ellRegion2 0 b b (0, (b : Int)) := by simp [ellWalk, hstart]
  rw [hwalk, List.mem_cons, mem_ellRegion2_of_zero_width, Prod.ext_iff]
  dsimp only
  omega

/-! ## Their pixels -/

/-- The mirror points of the walk with A = 0 are the column X from Y - B to Y + B. -/
theorem exists_mem_ellWalk_of_zero_width {x y u v : Int} {n : Nat} :
    (∃ q ∈ ellWalk 0 n, (u, v) ∈ mirror4 x y q.1 q.2) ↔ u = x ∧ y - n ≤ v ∧ v ≤ y + n := by
  simp only [mem_ellWalk_of_zero_width, mem_mirror4]
  constructor
  · rintro ⟨q, hq, hmem⟩
    omega
  · intro h
    exact ⟨(0, extent y v), by unfold extent; dsimp only; omega⟩

/-- The spans of a step on the y axis are its mirror points. -/
theorem mem_fillPoints4_of_x_zero {cx cy a b : Int} {q : Point} (hq : q.1 = 0) :
    (a, b) ∈ fillPoints4 cx cy q ↔ (a, b) ∈ mirror4 cx cy q.1 q.2 := by
  rw [mem_fillPoints4, mem_mirror4]
  omega

/-- A command that plots a list of points draws the in-bounds pixels with any property that says membership in the
list. -/
theorem drew_and_pixel_of_plots {i : Instr} {s : State} (hs : s.MemoriesOk) {ps : List Point}
    (h : exec i s = .next (s.drawn (plotAll s.fb ps))) {P : Int → Int → Prop} [∀ a b, Decidable (P a b)]
    (hP : ∀ a b, (a, b) ∈ ps ↔ P a b) : ∃ t, exec i s = .next t ∧ s.Drew t ∧
      ∀ a b, inBounds a b = true → t.pixel a b = (s.pixel a b || decide (P a b)) := by
  obtain ⟨t, hexec, hpixel⟩ := pixel_of_plots hs h hP
  cases h.symm.trans hexec
  exact ⟨_, h, drew_drawn s _, hpixel⟩

/-- Settles O54: the walk stays on the y axis, so the filled ellipse plots what the outline plots. -/
theorem degenerateEllipses : Obligations.DegenerateEllipses := by
  intro s x y n hs
  simp only [List.forall_mem_cons]
  refine ⟨⟨drew_and_pixel_of_plots hs (exec_elps s x y n 0) fun u v => ?_,
    drew_and_pixel_of_plots hs (exec_elpsf s x y n 0) fun u v => ?_, nofun⟩,
    drew_and_pixel_of_plots hs (exec_elps s x y 0 n) fun u v => ?_,
    drew_and_pixel_of_plots hs (exec_elpsf s x y 0 n) fun u v => ?_, nofun⟩
  · simp only [ellWalk_flat, List.flatMap_singleton, mem_mirror4]
    omega
  · simp only [ellWalk_flat, List.flatMap_singleton, mem_fillPoints4, mem_mirror4]
    omega
  · rw [List.mem_flatMap, exists_mem_ellWalk_of_zero_width]
  · rw [List.mem_flatMap, ← exists_mem_ellWalk_of_zero_width]
    exact exists_congr fun q => and_congr_right fun hq =>
      mem_fillPoints4_of_x_zero (mem_ellWalk_of_zero_width.1 hq).1

end Sys2Proof.Machine
end

section
/-! Pseudo-instructions (48_boundary_collaborators.md R150) and runs of their expansions: the rules that O57 to O60 are
settled from. -/

namespace Sys2Proof.Machine

/-- An accepted line is replaced by its commands. -/
theorem Pseudo.expand_of_accepted {q : Pseudo} (h : q.accepted = true) : q.expand = some q.commands := if_pos h

section EmptyRectangle
variable (x y : Int) {w h : Nat} (h0 : w = 0 ∨ h = 0)
include h0

theorem Pseudo.commands_rect_of_empty : (Pseudo.rect x y w h).commands = [] := if_pos h0

theorem Pseudo.commands_synca_of_empty : (Pseudo.synca x y w h).commands = [] := if_pos h0

end EmptyRectangle

/-- The first command leads to the state that the others run from. -/
theorem execAll_cons {i : Instr} {is : List Instr} {s t : State} (h : exec i s = .next t) :
    execAll (i :: is) s = execAll is t := by
  rw [execAll, h]

end Sys2Proof.Machine
end

section
/-! The filled rectangle RECTF (48_boundary_collaborators.md R152): the settling of O57. -/

namespace Sys2Proof.Machine

/-- The framebuffer RECTF draws: the rectangle's pixels cleared, then inverted. -/
def rectfFb (x y : Int) (w h : Nat) (fb : Memory) : Memory :=
  toggleAll (unplotAll fb (rectPoints x y w h)) (rectPoints x y w h)

/-- Running the expansion of RECTF draws `rectfFb`, after the response of its first command. -/
theorem execAll_rectf (x y : Int) (w h : Nat) (s : State) :
    ∃ t, execAll (Pseudo.rectf x y w h).commands s = .next t ∧ t.fb = rectfFb x y w h s.fb :=
  ⟨_, (execAll_cons (exec_clra s x y w h)).trans (execAll_cons (exec_inva _ x y w h)), rfl⟩

/-- A pixel that was cleared and then inverted is set; every other pixel is as before. -/
theorem testPixel_rectfFb {fb : Memory} (hw : Memory.wf Config.fbSize fb = true) (x y : Int) (w h : Nat) {a b : Int}
    (hab : inBounds a b = true) : testPixel (rectfFb x y w h fb) a b = (testPixel fb a b || inRect x y w h a b) := by
  have hclear := areaOp_unplotAll x y w h
  rw [rectfFb, (areaOp_toggleAll x y w h).pixel (hclear.wf hw) hab, hclear.pixel hw hab]
  cases inRect x y w h a b <;> simp

theorem rectfFb_of_empty (x y : Int) {w h : Nat} (h0 : w = 0 ∨ h = 0) (fb : Memory) : rectfFb x y w h fb = fb := by
  rw [rectfFb, rectPoints_eq_nil x y h0]
  rfl

/-- Settles O57: RECTF computes no coordinate, so operands in range are accepted, and the run draws `rectfFb`. -/
theorem rectfSetsTheRectangle : Obligations.RectfSetsTheRectangle := by
  intro s x y w h hs hok
  have haccepted : (Pseudo.rectf x y w h).accepted = true := by rw [Pseudo.accepted, hok]; rfl
  obtain ⟨t, hrun, hfb⟩ := execAll_rectf x y w h s
  refine ⟨_, t, Pseudo.expand_of_accepted haccepted, hrun, fun a b hab => ?_, fun h0 => ?_⟩
  · rw [State.pixel, hfb]
    exact testPixel_rectfFb hs.1 x y w h hab
  · rw [hfb, rectfFb_of_empty x y h0]

end Sys2Proof.Machine
end

section
/-! The rectangle outline RECT (48_boundary_collaborators.md R151): the settling of O58. -/

namespace Sys2Proof.Machine

/-- LINE from the first to the second point. -/
def lineBetween (l : Point × Point) : Instr := .line l.1.1 l.1.2 l.2.1 l.2.2

/-- The pixels of that line. -/
def pixelsBetween (l : Point × Point) : List Point := linePixels l.1.1 l.1.2 l.2.1 l.2.2

/-- Lines run one after another plot the pixels of the first, then of the second, and so on. -/
theorem execAll_lines (ls : List (Point × Point)) (s : State) :
    ∃ t, execAll (ls.map lineBetween) s = .next t ∧ t.fb = plotAll s.fb (ls.flatMap pixelsBetween) := by
  induction ls generalizing s with
  | nil => exact ⟨s, rfl, rfl⟩
  | cons l ls ih =>
    obtain ⟨t, hrun, hfb⟩ := ih (s.drawn (plotAll s.fb (pixelsBetween l)))
    refine ⟨t, (execAll_cons (exec_line s _ _ _ _)).trans hrun, ?_⟩
    rw [hfb, State.drawn_fb, List.flatMap_cons, plotAll_append]

/-- The top, bottom, left and right edge of the rectangle (X, Y, W, H), each from its first to its last pixel. -/
def rectEdges (x y : Int) (w h : Nat) : List (Point × Point) :=
  [((x, y), (x + w - 1, y)), ((x, y + h - 1), (x + w - 1, y + h - 1)),
   ((x, y), (x, y + h - 1)), ((x + w - 1, y), (x + w - 1, y + h - 1))]

theorem Pseudo.commands_rect (x y : Int) {w h : Nat} (h0 : ¬(w = 0 ∨ h = 0)) :
    (Pseudo.rect x y w h).commands = (rectEdges x y w h).map lineBetween := if_neg h0

/-- The pixels of the four edges are those of the rectangle on its first or last row or column. -/
theorem mem_rectEdges {x y a b : Int} {w h : Nat} (h0 : ¬(w = 0 ∨ h = 0)) :
    (a, b) ∈ (rectEdges x y w h).flatMap pixelsBetween ↔
      (x ≤ a ∧ a ≤ x + w - 1 ∧ y ≤ b ∧ b ≤ y + h - 1) ∧ (b = y ∨ b = y + h - 1 ∨ a = x ∨ a = x + w - 1) := by
  simp only [rectEdges, pixelsBetween, List.flatMap_cons, List.flatMap_nil, List.append_nil, List.mem_append,
    mem_linePixels_horizontal, mem_linePixels_vertical]
  omega

/-- Settles O58: an empty rectangle has no pixel and no command, any other runs the lines of its four edges. -/
theorem rectSetsTheEdges : Obligations.RectSetsTheEdges := by
  intro s x y w h hs haccepted
  by_cases h0 : w = 0 ∨ h = 0
  · refine ⟨[], s, ?_, rfl, fun _ => rfl, fun a b hab => ?_⟩
    · rw [Pseudo.expand_of_accepted haccepted, Pseudo.commands_rect_of_empty x y h0]
    · rw [decide_eq_false (by omega), Bool.or_false]
  · obtain ⟨t, hrun, hfb⟩ := execAll_lines (rectEdges x y w h) s
    refine ⟨_, t, ?_, hrun, fun h0' => absurd h0' h0, fun a b hab => ?_⟩
    · rw [Pseudo.expand_of_accepted haccepted, Pseudo.commands_rect x y h0]
    · rw [State.pixel, hfb, testPixel_plotAll hs.1 _ hab, decide_eq_decide.2 (mem_rectEdges h0)]
      rfl

end Sys2Proof.Machine
end

section
/-! The full read-out SYNC (48_boundary_collaborators.md R156): the settling of O59. -/

namespace Sys2Proof.Machine

/-- Reads run one after another answer their bytes in order, all of the framebuffer before the first. -/
theorem execAll_rdbs {α : Type} (page col : α → Nat) (qs : List α) (s : State) :
    ∃ t, execAll (qs.map fun q => .rdb (page q) (col q)) s = .next t ∧ t.fb = s.fb ∧
      t.responses = s.responses ++ qs.map fun q => ⟨.ok, readOut s.fb (page q) (col q)⟩ := by
  induction qs generalizing s with
  | nil => exact ⟨s, rfl, rfl, (List.append_nil _).symm⟩
  | cons q qs ih =>
    obtain ⟨t, hrun, hfb, hresponses⟩ := ih (s.answered (readOut s.fb (page q) (col q)))
    refine ⟨t, (execAll_cons (exec_rdb s _ _)).trans hrun, hfb, ?_⟩
    rw [hresponses, State.answered_responses, State.answered_fb, List.append_assoc]
    rfl

/-- Two nested counting loops are one loop over the index `n p + c`. -/
theorem flatMap_range_map_range {α : Type} (f : Nat → Nat → α) (m : Nat) {n : Nat} (hn : 0 < n) :
    ((List.range m).flatMap fun p => (List.range n).map (f p)) =
      (List.range (m * n)).map fun k => f (k / n) (k % n) := by
  induction m with
  | zero => simp
  | succ m ih =>
    have hrow : ∀ c ∈ List.range n, f m c = f ((m * n + c) / n) ((m * n + c) % n) := by
      intro c hc
      have hc : c < n := List.mem_range.1 hc
      rw [Nat.mul_comm m n, Nat.mul_add_div hn, Nat.mul_add_mod, Nat.div_eq_of_lt hc, Nat.mod_eq_of_lt hc, Nat.add_zero]
    rw [List.range_succ, List.flatMap_append, ih, List.flatMap_singleton, Nat.succ_mul, List.range_add, List.map_append,
      List.map_map]
    exact congrArg _ (List.map_congr_left hrow)

/-- SYNC reads byte `n` of the framebuffer, at page `n / 128` and column `n % 128`, for each `n` in turn. -/
theorem Pseudo.commands_sync : Pseudo.sync.commands = (List.range 1024).map fun n => .rdb (n / 128) (n % 128) := by
  rw [← flatMap_range_map_range Instr.rdb 8 (show 0 < 128 by decide)]
  simp [Pseudo.commands, readOutRange, intRange, List.flatMap_map, Function.comp_def]

/-- Settles O59: every byte that SYNC reads is on the panel. -/
theorem syncReadsEveryByte : Obligations.SyncReadsEveryByte := by
  intro s
  obtain ⟨t, hrun, hfb, hresponses⟩ := execAll_rdbs (· / 128) (· % 128) (List.range 1024) s
  rw [← Pseudo.commands_sync] at hrun
  refine ⟨_, t, Pseudo.expand_of_accepted rfl, hrun, hfb, ?_⟩
  rw [hresponses]
  refine congrArg _ (List.map_congr_left fun n hn => ?_)
  have hn : n < 1024 := List.mem_range.1 hn
  rw [readOut, if_pos (by omega)]
  rfl

end Sys2Proof.Machine
end

section
/-! The partial read-out SYNCA (48_boundary_collaborators.md R157): the settling of O60. -/

namespace Sys2Proof.Machine

/-- The reads are one per pair of a page and a column. -/
theorem readOutRange_eq_map_product (p0 p1 c0 c1 : Int) : readOutRange p0 p1 c0 c1 =
    (intRange p0 p1 ×ˢ intRange c0 c1).map fun q => .rdb q.1.toNat q.2.toNat := by
  simp [readOutRange, SProd.sprod, List.product, List.map_flatMap, Function.comp_def]

section OnPanel
variable {p0 p1 c0 c1 : Int} (hp0 : 0 ≤ p0) (hc0 : 0 ≤ c0)
include hp0 hc0

theorem mem_readOutRange {i : Instr} : i ∈ readOutRange p0 p1 c0 c1 ↔
    ∃ p c : Nat, i = .rdb p c ∧ (p0 ≤ p ∧ p ≤ p1) ∧ (c0 ≤ c ∧ c ≤ c1) := by
  simp only [readOutRange_eq_map_product, List.mem_map, Prod.exists, List.mem_product, mem_intRange]
  constructor
  · rintro ⟨p, c, ⟨hp, hc⟩, rfl⟩
    exact ⟨p.toNat, c.toNat, rfl, by omega, by omega⟩
  · rintro ⟨p, c, rfl, hp, hc⟩
    exact ⟨p, c, ⟨hp, hc⟩, rfl⟩

/-- Pages and columns from 0 on are told apart by their natural numbers. -/
theorem nodup_readOutRange : (readOutRange p0 p1 c0 c1).Nodup := by
  rw [readOutRange_eq_map_product]
  refine ((nodup_intRange p0 p1).product (nodup_intRange c0 c1)).map_on ?_
  rintro ⟨p, c⟩ hq ⟨p', c'⟩ hq' heq
  rw [List.mem_product, mem_intRange, mem_intRange] at hq hq'
  obtain ⟨hp, hc⟩ := Instr.rdb.inj heq
  rw [Prod.mk.injEq]
  omega

end OnPanel

/-- A run of rows touches the pages from that of its first row to that of its last. -/
theorem exists_row_in_page_iff {y y' p : Int} (hy : y ≤ y') :
    (∃ b, y ≤ b ∧ b ≤ y' ∧ pageOf b = p) ↔ pageOf y ≤ p ∧ p ≤ pageOf y' := by
  unfold pageOf
  constructor
  · rintro ⟨b, hlow, hhigh, rfl⟩
    omega
  · intro hp
    exact ⟨max y (8 * p), by omega, by omega, by omega⟩

theorem Pseudo.commands_synca (x y : Int) {w h : Nat} (h0 : ¬(w = 0 ∨ h = 0)) : (Pseudo.synca x y w h).commands =
    readOutRange (max 0 (pageOf y)) (min 7 (pageOf (y + h - 1))) (max 0 x) (min 127 (x + w - 1)) := if_neg h0

/-- Settles O60: an empty rectangle touches no byte; any other touches the pages from that of its first row to that of
its last, of which SYNCA reads those on the panel. -/
theorem syncaReadsTheTouchedBytes : Obligations.SyncaReadsTheTouchedBytes := by
  intro x y w h haccepted
  refine ⟨_, Pseudo.expand_of_accepted haccepted, ?_⟩
  by_cases h0 : w = 0 ∨ h = 0
  · rw [Pseudo.commands_synca_of_empty x y h0]
    refine ⟨List.nodup_nil, fun i => ⟨nofun, ?_⟩⟩
    rintro ⟨p, c, -, -, -, hxlow, hxhigh, b, hylow, hyhigh, -⟩
    omega
  · rw [Pseudo.commands_synca x y h0]
    have hp0 : 0 ≤ max 0 (pageOf y) := le_max_left _ _
    have hc0 : 0 ≤ max 0 x := le_max_left _ _
    refine ⟨nodup_readOutRange hp0 hc0, fun i => ?_⟩
    rw [mem_readOutRange hp0 hc0]
    refine exists_congr fun p => exists_congr fun c => and_congr_right fun _ => ?_
    rw [exists_row_in_page_iff (by omega)]
    omega

end Sys2Proof.Machine
end

section
/-! A step always answers a next state: the settling of O12. -/

namespace Sys2Proof.Machine

/-- Every command answers a next state, from every state (60_exceptions.md R184). -/
theorem exec_answers_next (i : Instr) (s : State) : ∃ t, exec i s = .next t := by
  obtain ⟨fb, data, hexec, -⟩ := exec_shape i s
  exact ⟨_, hexec⟩

/-- Settles O12, by the cases of a step: only a legal word runs a command, and a command answers a next state; in every
other case the next state stands in `step` itself. -/
theorem stepNeverStops : Obligations.StepNeverStops := by
  intro s
  rcases step_cases s with ⟨-, hs⟩ | ⟨f, rest, -, hs⟩ | ⟨a, b, rest, -, hs⟩ | ⟨w, rest, -, -, hs⟩ |
    ⟨w, rest, i, -, -, -, hs⟩ | ⟨w, rest, e, -, -, -, hs⟩
  · exact ⟨s, hs⟩
  · exact ⟨s.takeReset rest, hs⟩
  · exact ⟨s.takeImageWrite a b rest, hs⟩
  · exact ⟨s, hs⟩
  · obtain ⟨t, hexec⟩ := exec_answers_next i (s.accept rest)
    exact ⟨t, hs.trans hexec⟩
  · exact ⟨(s.accept rest).raiseIllegal, hs⟩

end Sys2Proof.Machine
end

section
/-! The reset input (70_reset_and_hazards.md R190, R191): the settling of O10. -/

namespace Sys2Proof.Machine

/-- A reset is taken whether the block is busy or idle, with or without a word in flight. -/
theorem step_reset {s : State} {inFlight : Option CmdWord} {rest : List Input}
    (hin : s.inputs = .reset inFlight :: rest) : step s = .next (s.takeReset rest) := by
  simp only [step, hin]

theorem fbRead_tabulate (f : Nat → Byte) {p c : Int} (h : byteInBounds p c = true) :
    fbRead (Memory.tabulate f Config.fbSize 0) p c = f (cellOf p c) := by
  have hcell : cellOf p c < 0 + Config.fbSize := by simpa using cellOf_lt h
  rw [fbRead, Memory.read_tabulate, if_pos ⟨Nat.zero_le _, hcell⟩]

/-- Settles O10: `State.takeReset` is the next state, and its framebuffer tabulates the free value over every address. -/
theorem resetInputLeavesFreeFramebuffer : Obligations.ResetInputLeavesFreeFramebuffer := by
  intro s inFlight rest hin
  refine ⟨s.takeReset rest, step_reset hin, rfl, rfl, rfl, rfl, rfl, ?_, ?_⟩
  · exact Memory.wf_tabulate _ le_rfl
  · intro p c hpc
    exact fbRead_tabulate _ hpc

end Sys2Proof.Machine
end
